-- ==== Sys2Proof/Word.lean ====
section
/-! DEFINITION. The bit widths of the block (spec 00_scope.md R7, 30_encoding.md R80): a 32-bit command or payload word, an
8-bit byte (operand field, buffer byte, register), a one-bit register. -/

namespace Sys2Proof

/-- A command word or payload word of the command port (R80). -/
abbrev Word := BitVec 32

/-- An operand field, a buffer byte, a glyph byte, a coordinate register. -/
abbrev Byte := BitVec 8

/-- A one-bit register (`DIR`, `MODE`; R24, R26). -/
abbrev Bit := BitVec 1

end Sys2Proof
end

