-- ==== Sys2Proof/Config.lean ====
section
/-! DEFINITION. What is fixed for this hardware: the parameters of spec 00_scope.md R5 and R6, and the values the spec
leaves open (the glyph ROM, the buffer after a reset, the reset parameters). -/

namespace Sys2Proof

/-! ### Parameters of the framebuffer unit (R5) -/

/-- `WIDTH`: pixels per row. -/
abbrev Config.width : Nat := 128
/-- `HEIGHT`: pixels per column. -/
abbrev Config.height : Nat := 64
/-- `PAGES`: bytes per pixel column. -/
abbrev Config.pages : Nat := 8
/-- `BUFSIZE`: bytes of the pixel buffer. -/
abbrev Config.bufSize : Nat := 1024
/-- `CELL`: width and height of a glyph cell, and the cursor's advance. -/
abbrev Config.cell : Nat := 5
/-- `CROSS`: side of the box of the diagonal cross. -/
abbrev Config.cross : Nat := 8

/-! ### Parameters of the robot unit (R6) -/

/-- `ROBOT_SIDE`: side of the square that shows the robot. -/
abbrev Config.robotSide : Nat := 8
/-- `DUST_SIDE`: side of a dust tile, an operand the host uses. -/
abbrev Config.dustSide : Nat := 4

/-! ### What the spec leaves open -/

/-- `GLYPH`: byte `col` (0..7) of row `row` (0..36) of the glyph ROM (R5, R35; 93_implementation_defined.md U4). OPEN in
the spec, so it has no value here. DESIGN CHOICE (free value), safe: notes/assumptions/4.md. -/
opaque Config.glyph : Nat → Nat → Byte

/-- The byte that index `i` of the pixel buffer holds after reset number `k` and until it is written (10_state.md R38:
"each byte may hold any value", U6). Unspecified in the spec, so it has no value here. DESIGN CHOICE (free value), safe:
notes/assumptions/2.md. -/
opaque Config.resetByte : Nat → Nat → Byte

/-- The open reset parameters `INIT_X`, `INIT_Y`, `INIT_DIR`, `INIT_MODE` (R6, R38). -/
structure ResetParams where
  /-- `INIT_X` -/
  initX : Byte
  /-- `INIT_Y` -/
  initY : Byte
  /-- `INIT_DIR` -/
  initDir : Bit
  /-- `INIT_MODE` -/
  initMode : Bit
  deriving DecidableEq, Repr

/-- A legal x coordinate of the robot: 8, 16, ..., 112 (R21). -/
def Config.latticeX (x : Byte) : Bool :=
  decide (x.toNat % 8 = 0) && decide (8 ≤ x.toNat) && decide (x.toNat ≤ 112)

/-- A legal y coordinate of the robot: 8, 16, ..., 56 (R22). -/
def Config.latticeY (y : Byte) : Bool :=
  decide (y.toNat % 8 = 0) && decide (8 ≤ y.toNat) && decide (y.toNat ≤ 56)

/-- The constraint R6 puts on the reset parameters: the starting cell is a lattice point. -/
def ResetParams.legal (p : ResetParams) : Bool :=
  Config.latticeX p.initX && Config.latticeY p.initY

/-- The reset parameters of this model: the spec's defaults, cell (8, 8), increasing x, Manual (R6, R38). DESIGN CHOICE,
unsafe: notes/assumptions/1.md. -/
def Config.resetParams : ResetParams :=
  { initX := 8, initY := 8, initDir := 0, initMode := 0 }

end Sys2Proof
end

