-- ==== Sys2Proof/Syntax.lean ====
section
/-! DEFINITION. The commands: one constructor per row of spec/opcode_table.json (30_encoding.md R83, R84), with the
operands its format reads (R81, R82). -/

namespace Sys2Proof

/-- One command. Coordinates, sides, character codes and register numbers are 8-bit fields; a flag operand is the one
bit the decoder reads (R86); the string of DRAWSTR is its characters, the length being their number (R87, R88). -/
inductive Instr where
  /-- SETPX x, y, on (R110) -/
  | setpx (x y : Byte) (on : Bool)
  /-- GETPX x, y (R111) -/
  | getpx (x y : Byte)
  /-- FILL v (R112) -/
  | fill (value : Bool)
  /-- DRAWSQ x, y, side (R120) -/
  | drawsq (x y side : Byte)
  /-- ERASESQ x, y, side (R121) -/
  | erasesq (x y side : Byte)
  /-- DRAWX x, y (R122) -/
  | drawx (x y : Byte)
  /-- DRAWCH x, y, ch (R132) -/
  | drawch (x y ch : Byte)
  /-- DRAWSTR x, y, s (R133) -/
  | drawstr (x y : Byte) (chars : List Byte)
  /-- PRESENT (R113) -/
  | present
  /-- MVUP (R140) -/
  | mvup
  /-- MVDOWN (R141) -/
  | mvdown
  /-- MVLEFT (R142) -/
  | mvleft
  /-- MVRIGHT (R143) -/
  | mvright
  /-- SETMODE m (R144); `true` is Automatic -/
  | setmode (m : Bool)
  /-- TICK (R145) -/
  | tick
  /-- RENDER (R156) -/
  | render
  /-- CMD up (R150) -/
  | cmdUp
  /-- CMD left (R151) -/
  | cmdLeft
  /-- CMD right (R152) -/
  | cmdRight
  /-- CMD down (R153) -/
  | cmdDown
  /-- CMD auto (R154) -/
  | cmdAuto
  /-- RDREG r (R157) -/
  | rdreg (r : Byte)
  deriving DecidableEq, Repr

end Sys2Proof
end

