-- ==== Sys2Proof/WellFormed.lean ====
section
/-! DEFINITION. Which terms of `Instr` are commands of the block: every operand fits its field by its type, and the length
of a DRAWSTR string fits the 8-bit field `c` (30_encoding.md R82, R87). -/

namespace Sys2Proof

/-- The string's length is a value of the field `c`, 0 to 255 (R82). -/
def stringFits (chars : List Byte) : Bool := decide (chars.length ≤ 255)

/-- Well-formed commands. -/
def Instr.wf : Instr → Bool
  | .drawstr _ _ chars => stringFits chars
  | .setpx _ _ _ | .getpx _ _ | .fill _ | .drawsq _ _ _ | .erasesq _ _ _ | .drawx _ _ | .drawch _ _ _ | .present
  | .mvup | .mvdown | .mvleft | .mvright | .setmode _ | .tick | .render
  | .cmdUp | .cmdLeft | .cmdRight | .cmdDown | .cmdAuto | .rdreg _ => true

end Sys2Proof
end

