-- ==== Sys2Proof/Decode.lean ====
section
/-! DEFINITION. Decoding and encoding: the fields of a command word (30_encoding.md R80, R82), the opcode map (R83, R84),
the rejection by name of words that are no row of the table (R85, R155), the DRAWSTR payload (R87, R88), the stream
decoder of the command port (R89), the encoder, and the assembler's pseudo-instructions (R90, R91). -/

namespace Sys2Proof

/-! ### Fields of a command word (R80) -/

/-- Bits 31:24, the opcode. -/
def opField (w : Word) : Byte := w.extractLsb' 24 8
/-- Bits 23:16, the x coordinate where there is one. -/
def xField (w : Word) : Byte := w.extractLsb' 16 8
/-- Bits 15:8, the y coordinate where there is one. -/
def yField (w : Word) : Byte := w.extractLsb' 8 8
/-- Bits 7:0, the value operand. -/
def cField (w : Word) : Byte := w.extractLsb' 0 8
/-- Bit 0, the only bit of `c` that formats B and PB read (R86). -/
def flagField (w : Word) : Bool := w.getLsbD 0

/-- Number of payload words a DRAWSTR of length `len` owes: `(len + 3) div 4` (R87). -/
def payloadWords (len : Byte) : Nat := (len.toNat + 3) / 4

/-- Length in words of the command that begins with `w`, known from `w` alone (R87). -/
def commandLength (w : Word) : Nat :=
  if opField w = 0x08 then 1 + payloadWords (cField w) else 1

/-- Character `k` of a payload: bits `8*(k mod 4)+7 : 8*(k mod 4)` of word `k div 4` (R88). -/
def payloadChar (payload : List Word) (k : Nat) : Byte :=
  ((payload[k / 4]?).getD 0).extractLsb' (8 * (k % 4)) 8

/-- The first `len` characters of a payload; later bytes of the last word are ignored (R88). -/
def unpackChars (len : Nat) (payload : List Word) : List Byte :=
  (List.range len).map (payloadChar payload)

/-! ### One command word (R83 to R86, R93) -/

/-- Words that select no row of the opcode table, by name. Both execute as no-ops of one word (R85, R155, R158). -/
inductive Reject where
  /-- The opcode is not in the table of R83. -/
  | reservedOpcode (op : Byte)
  /-- The opcode is CMD and the code is 5 to 255 (R84, R155). -/
  | unrecognisedCmd (code : Byte)
  deriving DecidableEq, Repr

/-- What a word is when it stands where a command word is expected. -/
inductive FirstWord where
  /-- A whole one-word command. -/
  | command (i : Instr)
  /-- The header of a DRAWSTR that owes at least one payload word (R89). -/
  | stringHeader (x y len : Byte)
  /-- No row of the table. -/
  | noCommand (r : Reject)
  deriving DecidableEq, Repr

/-- CMD is further selected by `c` (R84). -/
def decodeCmd (code : Byte) : FirstWord :=
  match code with
  | 0x00#8 => .command .cmdUp
  | 0x01#8 => .command .cmdLeft
  | 0x02#8 => .command .cmdRight
  | 0x03#8 => .command .cmdDown
  | 0x04#8 => .command .cmdAuto
  | _ => .noCommand (.unrecognisedCmd code)

/-- The opcode map (R83): a command is selected by `op` alone, CMD by `c` as well. -/
def decodeFirst (w : Word) : FirstWord :=
  match opField w with
  | 0x01#8 => .command (.setpx (xField w) (yField w) (flagField w))
  | 0x02#8 => .command (.getpx (xField w) (yField w))
  | 0x03#8 => .command (.fill (flagField w))
  | 0x04#8 => .command (.drawsq (xField w) (yField w) (cField w))
  | 0x05#8 => .command (.erasesq (xField w) (yField w) (cField w))
  | 0x06#8 => .command (.drawx (xField w) (yField w))
  | 0x07#8 => .command (.drawch (xField w) (yField w) (cField w))
  | 0x08#8 =>
    if cField w = 0 then .command (.drawstr (xField w) (yField w) [])
    else .stringHeader (xField w) (yField w) (cField w)
  | 0x09#8 => .command .present
  | 0x10#8 => .command .mvup
  | 0x11#8 => .command .mvdown
  | 0x12#8 => .command .mvleft
  | 0x13#8 => .command .mvright
  | 0x14#8 => .command (.setmode (flagField w))
  | 0x15#8 => .command .tick
  | 0x16#8 => .command .render
  | 0x20#8 => decodeCmd (cField w)
  | 0x30#8 => .command (.rdreg (cField w))
  | _ => .noCommand (.reservedOpcode (opField w))

/-! ### The command stream (R87, R89) -/

/-- A DRAWSTR whose payload is not complete: its header's operands and the payload words taken so far (R37 c, R89). -/
structure PendingString where
  x : Byte
  y : Byte
  len : Byte
  payload : List Word
  deriving DecidableEq, Repr

/-- Payload words still owed (`need` of R89). -/
def PendingString.need (p : PendingString) : Nat := payloadWords p.len - p.payload.length

/-- Append one payload word (R89). -/
def PendingString.push (p : PendingString) (w : Word) : PendingString :=
  { p with payload := p.payload ++ [w] }

/-- The command a complete payload gives (R88). -/
def PendingString.command (p : PendingString) : Instr :=
  .drawstr p.x p.y (unpackChars p.len.toNat p.payload)

/-- What the host does to the block: a word on the command port, or a reset, which may fall between two words or while the
block executes the command that a word completes (00_scope.md R12 item 8, 70_reset_and_hazards.md R190). DESIGN CHOICE:
notes/assumptions/5.md, 9.md. -/
inductive PortEvent where
  /-- A word is accepted, and what it completes runs to its end. -/
  | word (w : Word)
  /-- Reset is asserted while no command executes. -/
  | reset
  /-- A word is accepted, and reset is asserted before the block has finished with it, when `taken` bytes of the output of
  the command it completes, if any, had been taken from their port (R190, U20). -/
  | cutWord (w : Word) (taken : Nat)
  deriving DecidableEq, Repr

/-- What the executor finds at the head of the stream. `rest` is what stays on the port. -/
inductive Fetched where
  /-- Nothing was sent. -/
  | idle
  /-- The words end inside a DRAWSTR: the block waits with it pending (R89). -/
  | waiting (p : PendingString)
  /-- A reset comes before any command is complete, or during a word that runs nothing. -/
  | reset (rest : List PortEvent)
  /-- A word that selects no row of the table (R85, R155). -/
  | noCommand (r : Reject) (rest : List PortEvent)
  /-- A complete command. -/
  | command (i : Instr) (rest : List PortEvent)
  /-- A complete command during whose execution reset is asserted, `taken` bytes of its output taken (R190). -/
  | cutCommand (i : Instr) (taken : Nat) (rest : List PortEvent)
  deriving DecidableEq, Repr

/-- Take payload words, whatever their bits, until the pending DRAWSTR is complete (R87, R89). A reset discards it
(R190). -/
def gatherPayload : List PortEvent → PendingString → Fetched
  | [], p => .waiting p
  | .reset :: rest, _ => .reset rest
  | .word w :: rest, p =>
    if (p.push w).need = 0 then .command (p.push w).command rest else gatherPayload rest (p.push w)
  | .cutWord w taken :: rest, p =>
    if (p.push w).need = 0 then .cutCommand (p.push w).command taken rest else .reset rest

/-- Read the stream where a command word is expected (R89). -/
def fetchFirst : List PortEvent → Fetched
  | [] => .idle
  | .reset :: rest => .reset rest
  | .word w :: rest =>
    match decodeFirst w with
    | .command i => .command i rest
    | .stringHeader x y len => gatherPayload rest { x := x, y := y, len := len, payload := [] }
    | .noCommand r => .noCommand r rest
  | .cutWord w taken :: rest =>
    match decodeFirst w with
    | .command i => .cutCommand i taken rest
    | .stringHeader _ _ _ | .noCommand _ => .reset rest

/-- Read the stream with a DRAWSTR possibly pending: `need > 0` selects payload (R89). -/
def fetch (pending : Option PendingString) (input : List PortEvent) : Fetched :=
  match pending with
  | none => fetchFirst input
  | some p => if p.need = 0 then fetchFirst input else gatherPayload input p

/-! ### Decoding a list of words -/

/-- Why a list of words does not begin with an instruction. -/
inductive DecodeError where
  /-- There is no word. -/
  | noWord
  /-- The words end inside a DRAWSTR. -/
  | incompleteString
  /-- The first word selects no row of the table. -/
  | rejected (r : Reject)
  deriving DecidableEq, Repr

/-- The instruction that a list of words begins with; total on any words. -/
def decode (ws : List Word) : Except DecodeError Instr :=
  match fetchFirst (ws.map .word) with
  | .command i _ => .ok i
  | .noCommand r _ => .error (.rejected r)
  | .waiting _ => .error .incompleteString
  | .idle | .reset _ | .cutCommand _ _ _ => .error .noWord

/-! ### Encoding (R80 to R84, R87, R88, R90) -/

/-- The word `op*2^24 + a*2^16 + b*2^8 + c` (R90). -/
def headerWord (op a b c : Byte) : Word := op ++ a ++ b ++ c

/-- A flag operand in bit 0 of `c`, bits 7:1 zero (R81, R86). -/
def flagByte (f : Bool) : Byte := if f then 1 else 0

/-- Payload word `j` of a string: characters `4j` to `4j+3`, the earliest lowest, zero beyond the end (R88). -/
def packWord (chars : List Byte) (j : Nat) : Word :=
  (chars[4 * j + 3]?).getD 0 ++ (chars[4 * j + 2]?).getD 0 ++ (chars[4 * j + 1]?).getD 0 ++ (chars[4 * j]?).getD 0

/-- The payload words of a string (R87, R88). -/
def packChars (chars : List Byte) : List Word :=
  (List.range ((chars.length + 3) / 4)).map (packWord chars)

/-- The words of an instruction, reserved fields zero (R83, R84, R86). -/
def encode : Instr → List Word
  | .setpx x y on => [headerWord 0x01 x y (flagByte on)]
  | .getpx x y => [headerWord 0x02 x y 0]
  | .fill value => [headerWord 0x03 0 0 (flagByte value)]
  | .drawsq x y side => [headerWord 0x04 x y side]
  | .erasesq x y side => [headerWord 0x05 x y side]
  | .drawx x y => [headerWord 0x06 x y 0]
  | .drawch x y ch => [headerWord 0x07 x y ch]
  | .drawstr x y chars => headerWord 0x08 x y (BitVec.ofNat 8 chars.length) :: packChars chars
  | .present => [headerWord 0x09 0 0 0]
  | .mvup => [headerWord 0x10 0 0 0]
  | .mvdown => [headerWord 0x11 0 0 0]
  | .mvleft => [headerWord 0x12 0 0 0]
  | .mvright => [headerWord 0x13 0 0 0]
  | .setmode m => [headerWord 0x14 0 0 (flagByte m)]
  | .tick => [headerWord 0x15 0 0 0]
  | .render => [headerWord 0x16 0 0 0]
  | .cmdUp => [headerWord 0x20 0 0 0x00]
  | .cmdLeft => [headerWord 0x20 0 0 0x01]
  | .cmdRight => [headerWord 0x20 0 0 0x02]
  | .cmdDown => [headerWord 0x20 0 0 0x03]
  | .cmdAuto => [headerWord 0x20 0 0 0x04]
  | .rdreg r => [headerWord 0x30 0 0 r]

/-! ### The opcode table's numbering of an instruction's bits -/

/-- The words of the instruction whose bits are `w`, 32 bits a word from bit 0 up; every bit from `nbits` on is zero.
There are as many words as the first one says (R87). -/
def tableWords (nbits w : Nat) : List Word :=
  (List.range (commandLength (BitVec.ofNat 32 (w % 2 ^ nbits)))).map fun k =>
    BitVec.ofNat 32 ((w % 2 ^ nbits) >>> (32 * k))

/-- The instruction the decoder reads from an instruction whose bits are `w`. -/
def decodeTableWord (nbits w : Nat) : Option Instr :=
  match decode (tableWords nbits w) with
  | .ok i => some i
  | .error _ => none

/-! ### The assembler's lines (R90, R91)

The spec's own notation for words. The text itself is not modelled (notes/assumptions/19.md). -/

/-- The pseudo-instructions of R91. -/
inductive Pseudo where
  | nop
  | clear
  | robot (x y : Byte)
  | unrobot (x y : Byte)
  | dust (x y : Byte)
  | undust (x y : Byte)
  | manual
  | auto
  deriving DecidableEq, Repr

/-- The words a pseudo-instruction stands for (R91). -/
def pseudoWords : Pseudo → List Word
  | .nop => [0x00000000]
  | .clear => encode (.fill false)
  | .robot x y => encode (.drawsq x y (BitVec.ofNat 8 Config.robotSide))
  | .unrobot x y => encode (.erasesq x y (BitVec.ofNat 8 Config.robotSide))
  | .dust x y => encode (.drawsq x y (BitVec.ofNat 8 Config.dustSide))
  | .undust x y => encode (.erasesq x y (BitVec.ofNat 8 Config.dustSide))
  | .manual => encode (.setmode false)
  | .auto => encode (.setmode true)

/-- `CMD n`: the host command word with any code (R90). -/
def cmdWord (code : Byte) : Word := headerWord 0x20 0 0 code

end Sys2Proof
end

