-- ==== Sys2Proof/Machine/State.lean ====
section
/-! DEFINITION. The state of the block as plain data (10_state.md R20, R37, R38), its outputs, the reasons a step could stop
(none, 60_exceptions.md R170), and the state after reset. -/

namespace Sys2Proof.Machine

/-- The pixel buffer (R34) as the bytes written since the last reset, by index, indices strictly rising. A byte that is
not listed is as the reset left it, which the spec does not fix (R38): it reads as `Config.resetByte`
(notes/assumptions/2.md, 3.md). -/
abbrev Memory := List Host.Cell

/-- The canonical form from index `lo` on: indices strictly rise and lie in the buffer. -/
def Memory.wfFrom (lo : Nat) : Memory → Bool
  | [] => true
  | (a, _) :: rest => decide (lo ≤ a) && decide (a < Config.bufSize) && Memory.wfFrom (a + 1) rest

/-- The canonical form: indices strictly rise, all below `BUFSIZE`. -/
def Memory.wf (m : Memory) : Bool := Memory.wfFrom 0 m

/-- One frame: the buffer's bytes in ascending index order, with the metadata `PAGES` and `WIDTH` (R67, R113). A frame that a
reset cut short has the bytes sent before it, fewer than `BUFSIZE` (R190). -/
structure Frame where
  bytes : List Byte
  pages : Byte
  width : Byte
  deriving DecidableEq, Repr

/-- What a command can emit: a byte on the response port (R92) or a frame on the frame port (R113). -/
inductive Output where
  | rsp (v : Byte)
  | frame (f : Frame)
  deriving DecidableEq, Repr

/-- The whole state. INVENTORY.md lists each field with the rule that names it. -/
structure State where
  /-- `POS_X`, register 0 (R21) -/
  posX : Byte
  /-- `POS_Y`, register 1 (R22) -/
  posY : Byte
  /-- `PREV_X`, register 2 (R23) -/
  prevX : Byte
  /-- `PREV_Y`, register 3 (R23) -/
  prevY : Byte
  /-- `DIR`, register 4: 0 toward increasing x, 1 toward decreasing x (R24) -/
  dir : Bit
  /-- `STEP`, register 5 (R25) -/
  stepCount : BitVec 4
  /-- `MODE`, register 6: 0 Manual, 1 Automatic (R26) -/
  mode : Bit
  /-- the pixel buffer (R34) -/
  buf : Memory
  /-- the command decoder's DRAWSTR in progress (R37 c, R89) -/
  pending : Option PendingString
  /-- the model's own: the number of resets so far, which selects the free bytes of the buffer (notes/assumptions/2.md) -/
  resets : Nat
  /-- the command port: what the host has sent and the block has not taken, oldest first (R193; notes/assumptions/5.md) -/
  input : List PortEvent
  /-- the response and frame ports: what the block has emitted, oldest first (R193; notes/assumptions/8.md) -/
  out : List Output
  deriving DecidableEq, Repr

/-- There is no fault: no command raises an exception, fault or error (R170; 93_implementation_defined.md: "Nothing in this
block is `fault` or `refuse`"). So the type has no constructor. DEDUCED, safe: notes/assumptions/11.md. -/
inductive Fault where
  deriving DecidableEq, Repr

/-- Reasons a step gives no meaning. -/
inductive Refusal where
  /-- The host's own: an instruction the model has no meaning for. Raised by no arm of `exec`, since every instruction is
  modelled; raising it would be safe. -/
  | notModelled (mnemonic : String)
  deriving DecidableEq, Repr

/-- The state after reset number `k` for any reset parameters (R38): position and previous position at the starting cell,
`STEP` 0, nothing pending, no byte of the buffer written yet. `input` and `out` are what the ports hold. -/
def State.resetWith (p : ResetParams) (k : Nat) (input : List PortEvent) (out : List Output) : State :=
  { posX := p.initX
    posY := p.initY
    prevX := p.initX
    prevY := p.initY
    dir := p.initDir
    stepCount := 0
    mode := p.initMode
    buf := []
    pending := none
    resets := k
    input := input
    out := out }

/-- The machine right after reset (R38, R190), with nothing sent and nothing emitted. -/
def State.reset : State := State.resetWith Config.resetParams 0 [] []

end Sys2Proof.Machine
end

