-- ==== Sys2Proof/Machine/Flags.lean ====
section
/-! DEFINITION. The flags, the status register and the level outputs: all functions of the registers, none of them state
(10_state.md R29 to R31, 60_exceptions.md R172, 70_reset_and_hazards.md R193). -/

namespace Sys2Proof.Machine

/-- `IND_MANUAL = (MODE == 0)` (R29). -/
def State.indManual (s : State) : Bool := s.mode == 0

/-- `IND_AUTO = (MODE == 1)` (R29). -/
def State.indAuto (s : State) : Bool := s.mode == 1

/-- `POS_CHANGED = (POS_X != PREV_X) or (POS_Y != PREV_Y)` (R30). -/
def State.posChanged (s : State) : Bool := s.posX != s.prevX || s.posY != s.prevY

/-- `STATUS`: bit 0 `IND_MANUAL`, bit 1 `IND_AUTO`, bit 2 `POS_CHANGED`, bits 7:3 zero (R31). -/
def State.status (s : State) : Byte :=
  0#5 ++ BitVec.ofBool s.posChanged ++ BitVec.ofBool s.indAuto ++ BitVec.ofBool s.indManual

/-- The level outputs of the block (R193). -/
structure Levels where
  posX : Byte
  posY : Byte
  dir : Bit
  stepCount : BitVec 4
  mode : Bit
  indManual : Bool
  indAuto : Bool
  posChanged : Bool
  deriving DecidableEq, Repr

/-- The level outputs as functions of the state (R14, R172, R193). -/
def State.levels (s : State) : Levels :=
  { posX := s.posX
    posY := s.posY
    dir := s.dir
    stepCount := s.stepCount
    mode := s.mode
    indManual := s.indManual
    indAuto := s.indAuto
    posChanged := s.posChanged }

end Sys2Proof.Machine
end

