-- ==== Sys2Proof/Machine/Operands.lean ====
section
/-! DEFINITION. Operand forms: the pixel coordinate pair and the pixel address encoder (20_memory.md R50 to R52), and the
character code with its glyph row and glyph column (42_fb_text.md R130, R131). Coordinates are natural numbers, so no sum
wraps (00_scope.md R8). -/

namespace Sys2Proof.Machine

/-- `InRange(x, y)` (R52), on the full, unwrapped coordinates. -/
def inRange (x y : Nat) : Bool := decide (x < Config.width) && decide (y < Config.height)

/-- `idx(x, y) = (y div 8) + (x * PAGES)` (R50). -/
def pixelIndex (x y : Nat) : Nat := y / 8 + x * Config.pages

/-- `bitp(x, y) = y mod 8` (R50). -/
def pixelBit (y : Nat) : Nat := y % 8

/-- `mask(x, y) = 2 ^ bitp(x, y)` (R50). -/
def pixelMask (y : Nat) : Byte := 1#8 <<< pixelBit y

/-- `Row(ch)` (R130): 'A'..'Z' select rows 11..36, '0'..'9' rows 1..10, every other code none. -/
def glyphRow (ch : Byte) : Option Nat :=
  if 0x41 ≤ ch.toNat ∧ ch.toNat ≤ 0x5A then some (11 + (ch.toNat - 0x41))
  else if 0x30 ≤ ch.toNat ∧ ch.toNat ≤ 0x39 then some (1 + (ch.toNat - 0x30))
  else none

/-- `GlyphCol(ch, i)` (R131): bits 4:0 of ROM byte `i` of the character's row, or the blank column. `glyph` is the ROM, an
argument because its contents are open (R5). -/
def glyphCol (glyph : Nat → Nat → Byte) (ch : Byte) (i : Nat) : BitVec 5 :=
  match glyphRow ch with
  | some row => (glyph row i).extractLsb' 0 5
  | none => 0

end Sys2Proof.Machine
end

