-- ==== Sys2Proof/Machine/Ops.lean ====
section
/-! DEFINITION. The shared operations: bytes of the pixel buffer, the two access primitives (20_memory.md R53, R54), the
outputs (30_encoding.md R92, 40_fb_pixel.md R113), the register reads and writes, the bounded moves (43_robot.md R140 to
R143), and reset (70_reset_and_hazards.md R190). There is no operation that takes an exception or returns from one: the
block has none (60_exceptions.md R170, R174, R175). -/

namespace Sys2Proof.Machine

/-! ### The buffer as data -/

/-- The byte written at index `i` since the last reset, if any. -/
def Memory.find (i : Nat) : Memory → Option Byte
  | [] => none
  | (a, v) :: rest => if i = a then some v else Memory.find i rest

/-- Put byte `v` at index `i`, keeping the indices rising. -/
def Memory.insert (i : Nat) (v : Byte) : Memory → Memory
  | [] => [(i, v)]
  | (a, b) :: rest =>
    if i < a then (i, v) :: (a, b) :: rest
    else if i = a then (i, v) :: rest
    else (a, b) :: Memory.insert i v rest

/-- Write one byte. No command writes outside the buffer (R55), so an index outside it changes nothing
(notes/assumptions/21.md). -/
def Memory.write (m : Memory) (i : Nat) (v : Byte) : Memory :=
  if i < Config.bufSize then Memory.insert i v m else m

/-- Every byte of the buffer written with `v` (R112). -/
def Memory.filled (v : Byte) : Memory := (List.range Config.bufSize).map fun i => (i, v)

/-! ### Field updates -/

def State.setPosX (s : State) (v : Byte) : State := { s with posX := v }
def State.setPosY (s : State) (v : Byte) : State := { s with posY := v }
def State.setPrev (s : State) (x y : Byte) : State := { s with prevX := x, prevY := y }
def State.setDir (s : State) (v : Bit) : State := { s with dir := v }
def State.setStepCount (s : State) (v : BitVec 4) : State := { s with stepCount := v }
def State.setMode (s : State) (v : Bit) : State := { s with mode := v }
def State.setBuf (s : State) (m : Memory) : State := { s with buf := m }
/-- What the decoder holds and what stays on the command port after a command is taken. -/
def State.setPort (s : State) (p : Option PendingString) (rest : List PortEvent) : State :=
  { s with pending := p, input := rest }
/-- Put one output on its port, after all earlier ones (R194). -/
def State.emit (s : State) (o : Output) : State := { s with out := s.out ++ [o] }

/-! ### Bytes and pixels of the buffer -/

/-- `MemRead(i, 1)` (R9): the byte written last, or the byte the latest reset left there (R38). -/
def State.bufByte (s : State) (i : Nat) : Byte := (Memory.find i s.buf).getD (Config.resetByte s.resets i)

/-- `MemWrite(i, 1, v)` (R9). -/
def State.setBufByte (s : State) (i : Nat) (v : Byte) : State := s.setBuf (Memory.write s.buf i v)

/-- The byte `old` with the bits of `m` set or cleared (R53). -/
def maskedByte (old m : Byte) (on : Bool) : Byte := if on then old ||| m else old &&& (0xFF#8 ^^^ m)

/-- `SetPixel(x, y, on)` (R53): an out-of-range pixel is dropped (R55). -/
def setPixel (x y : Nat) (on : Bool) (s : State) : State :=
  if inRange x y then
    s.setBufByte (pixelIndex x y) (maskedByte (s.bufByte (pixelIndex x y)) (pixelMask y) on)
  else s

/-- `GetPixel(x, y)` (R54): an out-of-range pixel reads 0. -/
def getPixel (x y : Nat) (s : State) : Bool :=
  if inRange x y then (s.bufByte (pixelIndex x y)).getLsbD (pixelBit y) else false

/-- `for i in [0, n)` (R9): `f 0`, then `f 1`, up to `f (n - 1)`. -/
def forRange (n : Nat) (f : Nat → State → State) (s : State) : State :=
  match n with
  | 0 => s
  | k + 1 => f k (forRange k f s)

/-- The `side × side` block of pixels with top-left corner `(x, y)`, each written with `on` (R120, R121). -/
def paintSquare (x y side : Nat) (on : Bool) (s : State) : State :=
  forRange side (fun i => forRange side (fun j => setPixel (x + i) (y + j) on)) s

/-- Every pixel written with one value (R112). -/
def fillBuffer (value : Bool) (s : State) : State := s.setBuf (Memory.filled (if value then 0xFF else 0x00))

/-- The frame of the present buffer: its bytes in ascending order, with `PAGES` and `WIDTH` (R67, R113). -/
def State.currentFrame (s : State) : Frame :=
  { bytes := (List.range Config.bufSize).map s.bufByte
    pages := BitVec.ofNat 8 Config.pages
    width := BitVec.ofNat 8 Config.width }

/-- `emit Frame(buf[0 .. BUFSIZE-1])` (R113). -/
def emitFrame (s : State) : State := s.emit (.frame s.currentFrame)

/-- `emit Rsp(v)` (R92). -/
def emitResponse (v : Byte) (s : State) : State := s.emit (.rsp v)

/-! ### The robot's registers -/

/-- `MoveUp` (R140). -/
def moveUp (s : State) : State := if s.posY < 16 then s else s.setPosY (s.posY - 8)

/-- `MoveDown` (R141). -/
def moveDown (s : State) : State := if s.posY > 48 then s else s.setPosY (s.posY + 8)

/-- `MoveLeft` (R142). -/
def moveLeft (s : State) : State := if s.posX < 16 then s else s.setPosX (s.posX - 8)

/-- `MoveRight` (R143), with the guard of 90_conflicts.md C1. -/
def moveRight (s : State) : State := if s.posX > 104 then s else s.setPosX (s.posX + 8)

/-- `SetMode(m)` (R144): `true` is Automatic. -/
def setMode (m : Bool) (s : State) : State := s.setMode (BitVec.ofBool m)

/-- `x[r]`, the 8-bit value of register number `r` (R33): narrow registers zero-extended, unassigned numbers 0. -/
def readReg (r : Byte) (s : State) : Byte :=
  match r with
  | 0x00#8 => s.posX
  | 0x01#8 => s.posY
  | 0x02#8 => s.prevX
  | 0x03#8 => s.prevY
  | 0x04#8 => s.dir.setWidth 8
  | 0x05#8 => s.stepCount.setWidth 8
  | 0x06#8 => s.mode.setWidth 8
  | 0x07#8 => s.status
  | 0x08#8 => BitVec.ofNat 8 Config.width
  | 0x09#8 => BitVec.ofNat 8 Config.height
  | 0x0A#8 => BitVec.ofNat 8 Config.pages
  | _ => 0

/-! ### Reset -/

/-- A reset of the running block (R190): the state of R38, with the buffer arbitrary anew and a pending DRAWSTR discarded;
what was emitted before has left the block and `rest` stays on the command port. -/
def resetBlock (rest : List PortEvent) (s : State) : State :=
  State.resetWith Config.resetParams (s.resets + 1) rest s.out

/-- What its port shows of an output when reset comes after `taken` of its bytes were taken (R190): an output not yet emitted
is never emitted, a frame partly sent is cut short. -/
def cutOutput (taken : Nat) (o : Output) : List Output :=
  match o with
  | .rsp v => if taken = 0 then [] else [.rsp v]
  | .frame f => if taken = 0 then [] else [.frame { f with bytes := f.bytes.take taken }]

/-- A reset while a command executes that would have taken the block from `s` to `t` (R190): the state of a reset, with the
part of the command's output that had been taken. -/
def resetExecuting (taken : Nat) (rest : List PortEvent) (s t : State) : State :=
  State.resetWith Config.resetParams (s.resets + 1) rest (s.out ++ (t.out.drop s.out.length).flatMap (cutOutput taken))

/-- A command's outcome from `s` when reset is asserted while it executes (R190). -/
def cutShort (taken : Nat) (rest : List PortEvent) (s : State) (o : Host.Outcome State Fault Refusal) :
    Host.Outcome State Fault Refusal :=
  match o with
  | .next t => .next (resetExecuting taken rest s t)
  | .fault f => .fault f
  | .refused r => .refused r

end Sys2Proof.Machine
end

