-- ==== Sys2Proof/Machine/HostCommands.lean ====
section
/-! DEFINITION. CMD up, left, right, down, auto, the unrecognised CMD, RENDER, RDREG, and the reserved opcodes
(44_host_commands.md). -/

namespace Sys2Proof.Machine

/-- CMD up (R150): Manual, then the move. -/
def execCmdUp (s : State) : Host.Outcome State Fault Refusal := .next (moveUp (setMode false s))

/-- CMD left (R151). -/
def execCmdLeft (s : State) : Host.Outcome State Fault Refusal := .next (moveLeft (setMode false s))

/-- CMD right (R152). -/
def execCmdRight (s : State) : Host.Outcome State Fault Refusal := .next (moveRight (setMode false s))

/-- CMD down (R153). -/
def execCmdDown (s : State) : Host.Outcome State Fault Refusal := .next (moveDown (setMode false s))

/-- CMD auto (R154). -/
def execCmdAuto (s : State) : Host.Outcome State Fault Refusal := .next (setMode true s)

/-- The redraw of a changed position (R156): erase the robot's square at the previous cell, draw it at the current one,
record the cell, emit the frame. -/
def redraw (s : State) : State :=
  let erased := paintSquare s.prevX.toNat s.prevY.toNat Config.robotSide false s
  let drawn := paintSquare s.posX.toNat s.posY.toNat Config.robotSide true erased
  emitFrame (drawn.setPrev s.posX s.posY)

/-- RENDER (R156): nothing at all when the position has not changed. -/
def execRender (s : State) : Host.Outcome State Fault Refusal :=
  .next (if s.posChanged then redraw s else s)

/-- RDREG (R157). -/
def execRdreg (r : Byte) (s : State) : Host.Outcome State Fault Refusal :=
  .next (emitResponse (readReg r s) s)

/-- A word that selects no row of the table: a reserved opcode (R85, R158) or an unrecognised CMD (R155). Both are `skip`. -/
def execNoCommand (r : Reject) (s : State) : Host.Outcome State Fault Refusal :=
  match r with
  | .reservedOpcode _ => .next s
  | .unrecognisedCmd _ => .next s

end Sys2Proof.Machine
end

