-- ==== Sys2Proof/Machine/Pixel.lean ====
section
/-! DEFINITION. SETPX, GETPX, FILL, PRESENT (40_fb_pixel.md). -/

namespace Sys2Proof.Machine

/-- SETPX (R110). -/
def execSetpx (x y : Byte) (on : Bool) (s : State) : Host.Outcome State Fault Refusal :=
  .next (setPixel x.toNat y.toNat on s)

/-- GETPX (R111): responds 0x01 if the pixel is on, 0x00 if off or out of range. -/
def execGetpx (x y : Byte) (s : State) : Host.Outcome State Fault Refusal :=
  .next (emitResponse (if getPixel x.toNat y.toNat s then 0x01 else 0x00) s)

/-- FILL (R112). -/
def execFill (value : Bool) (s : State) : Host.Outcome State Fault Refusal :=
  .next (fillBuffer value s)

/-- PRESENT (R113). -/
def execPresent (s : State) : Host.Outcome State Fault Refusal :=
  .next (emitFrame s)

end Sys2Proof.Machine
end

