-- ==== Sys2Proof/Machine/Robot.lean ====
section
/-! DEFINITION. MVUP, MVDOWN, MVLEFT, MVRIGHT, SETMODE, TICK (43_robot.md). -/

namespace Sys2Proof.Machine

/-- MVUP (R140). -/
def execMvup (s : State) : Host.Outcome State Fault Refusal := .next (moveUp s)

/-- MVDOWN (R141). -/
def execMvdown (s : State) : Host.Outcome State Fault Refusal := .next (moveDown s)

/-- MVLEFT (R142). -/
def execMvleft (s : State) : Host.Outcome State Fault Refusal := .next (moveLeft s)

/-- MVRIGHT (R143). -/
def execMvright (s : State) : Host.Outcome State Fault Refusal := .next (moveRight s)

/-- SETMODE (R144). -/
def execSetmode (m : Bool) (s : State) : Host.Outcome State Fault Refusal := .next (setMode m s)

/-- One step of the automatic sweep (R145). -/
def sweepTick (s : State) : State :=
  if s.mode = 1 then
    if s.stepCount < 14 then
      let moved := if s.dir = 0 then moveRight s else moveLeft s
      moved.setStepCount (moved.stepCount + 1)
    else
      moveDown ((s.setDir (1 - s.dir)).setStepCount 0)
  else s

/-- TICK (R145). -/
def execTick (s : State) : Host.Outcome State Fault Refusal := .next (sweepTick s)

end Sys2Proof.Machine
end

