-- ==== Sys2Proof/Machine/Shapes.lean ====
section
/-! DEFINITION. DRAWSQ, ERASESQ, DRAWX (41_fb_shapes.md). -/

namespace Sys2Proof.Machine

/-- DRAWSQ (R120). -/
def execDrawsq (x y side : Byte) (s : State) : Host.Outcome State Fault Refusal :=
  .next (paintSquare x.toNat y.toNat side.toNat true s)

/-- ERASESQ (R121). -/
def execErasesq (x y side : Byte) (s : State) : Host.Outcome State Fault Refusal :=
  .next (paintSquare x.toNat y.toNat side.toNat false s)

/-- The two diagonals of the 8×8 box at `(x, y)` (R122). -/
def paintCross (x y : Nat) (s : State) : State :=
  forRange Config.cross (fun i s => setPixel (x + (7 - i)) (y + i) true (setPixel (x + i) (y + i) true s)) s

/-- DRAWX (R122). -/
def execDrawx (x y : Byte) (s : State) : Host.Outcome State Fault Refusal :=
  .next (paintCross x.toNat y.toNat s)

end Sys2Proof.Machine
end

