-- ==== Sys2Proof/Machine/Text.lean ====
section
/-! DEFINITION. DRAWCH, DRAWSTR (42_fb_text.md). The glyph ROM is an argument of the shared operations, so that they can be
tried with any table; the commands use the open `Config.glyph` (00_scope.md R5). -/

namespace Sys2Proof.Machine

/-- `DrawChar(ch, x, y)` (R132): every pixel of the 5×5 cell is written with its glyph bit. -/
def drawChar (glyph : Nat → Nat → Byte) (ch : Byte) (x y : Nat) (s : State) : State :=
  forRange Config.cell
    (fun i => forRange Config.cell (fun j => setPixel (x + i) (y + j) ((glyphCol glyph ch i).getLsbD j))) s

/-- The column a character is drawn at when the cursor is at column `cx`: the next line's column 0 if the cell would exceed
`WIDTH` (R133; 90_conflicts.md C5). -/
def wrapColumn (cx : Nat) : Nat := if cx + Config.cell > Config.width then 0 else cx

/-- The row a character is drawn at when the cursor is at `(cx, cy)` (R133). -/
def wrapRow (cx cy : Nat) : Nat := if cx + Config.cell > Config.width then cy + Config.cell else cy

/-- The loop of R133 with the cursor at `(cx, cy)`: wrap, stop if the line would exceed `HEIGHT`, else draw and advance. -/
def drawChars (glyph : Nat → Nat → Byte) : List Byte → Nat → Nat → State → State
  | [], _, _, s => s
  | ch :: rest, cx, cy, s =>
    if wrapRow cx cy + Config.cell > Config.height then s
    else
      drawChars glyph rest (wrapColumn cx + Config.cell) (wrapRow cx cy)
        (drawChar glyph ch (wrapColumn cx) (wrapRow cx cy) s)

/-- DRAWCH (R132). -/
def execDrawch (x y ch : Byte) (s : State) : Host.Outcome State Fault Refusal :=
  .next (drawChar Config.glyph ch x.toNat y.toNat s)

/-- DRAWSTR (R133). -/
def execDrawstr (x y : Byte) (chars : List Byte) (s : State) : Host.Outcome State Fault Refusal :=
  .next (drawChars Config.glyph chars x.toNat y.toNat s)

end Sys2Proof.Machine
end

