-- ==== Sys2Proof/Machine/Dispatch.lean ====
section
/-! DEFINITION. One arm per instruction, each one call of its meaning. -/

namespace Sys2Proof.Machine

def exec (i : Instr) (s : State) : Host.Outcome State Fault Refusal :=
  match i with
  | .setpx x y on => Sys2Proof.Machine.execSetpx x y on s
  | .getpx x y => Sys2Proof.Machine.execGetpx x y s
  | .fill value => Sys2Proof.Machine.execFill value s
  | .drawsq x y side => Sys2Proof.Machine.execDrawsq x y side s
  | .erasesq x y side => Sys2Proof.Machine.execErasesq x y side s
  | .drawx x y => Sys2Proof.Machine.execDrawx x y s
  | .drawch x y ch => Sys2Proof.Machine.execDrawch x y ch s
  | .drawstr x y chars => Sys2Proof.Machine.execDrawstr x y chars s
  | .present => Sys2Proof.Machine.execPresent s
  | .mvup => Sys2Proof.Machine.execMvup s
  | .mvdown => Sys2Proof.Machine.execMvdown s
  | .mvleft => Sys2Proof.Machine.execMvleft s
  | .mvright => Sys2Proof.Machine.execMvright s
  | .setmode m => Sys2Proof.Machine.execSetmode m s
  | .tick => Sys2Proof.Machine.execTick s
  | .render => Sys2Proof.Machine.execRender s
  | .cmdUp => Sys2Proof.Machine.execCmdUp s
  | .cmdLeft => Sys2Proof.Machine.execCmdLeft s
  | .cmdRight => Sys2Proof.Machine.execCmdRight s
  | .cmdDown => Sys2Proof.Machine.execCmdDown s
  | .cmdAuto => Sys2Proof.Machine.execCmdAuto s
  | .rdreg r => Sys2Proof.Machine.execRdreg r s

end Sys2Proof.Machine
end

