-- ==== Sys2Proof/Machine/Step.lean ====
section
/-! DEFINITION. One step of the executor (00_scope.md R10, 30_encoding.md R89): take the next whole command from the port and
run it. -/

namespace Sys2Proof.Machine

/-- One step. With nothing on the port the block holds its state (60_exceptions.md R181); with a DRAWSTR incomplete it waits
with it pending, all else unchanged (R89); a reset resets it (R190); a word of no row is a no-op (R85, R155); a command
executes, its words gone from the port, to its end or until a reset cuts it short (R190). -/
def step (s : State) : Host.Outcome State Fault Refusal :=
  match fetch s.pending s.input with
  | .idle => .next s
  | .waiting p => .next (s.setPort (some p) [])
  | .reset rest => .next (resetBlock rest s)
  | .noCommand r rest => execNoCommand r (s.setPort none rest)
  | .command i rest => exec i (s.setPort none rest)
  | .cutCommand i taken rest => cutShort taken rest s (exec i (s.setPort none rest))

/-- `s` with the instruction whose bits are `w` at the head of the command port and no DRAWSTR pending, so that the next
step runs exactly it (notes/assumptions/7.md). -/
def State.withFetchWord (s : State) (nbits w : Nat) : State :=
  s.setPort none ((tableWords nbits w).map .word ++ s.input)

end Sys2Proof.Machine
end

