-- ==== Sys2Proof/Machine/Stream.lean ====
section
/-! DEFINITION. The stream decoder of 30_encoding.md R89 read literally: one event of the command port at a time, with the
count of payload words owed. `step` takes a whole command at once; a statement says that the two agree. -/

namespace Sys2Proof.Machine

/-- `need` of R89: payload words owed, 0 when no DRAWSTR is pending. -/
def State.payloadOwed (s : State) : Nat :=
  match s.pending with
  | none => 0
  | some p => p.need

/-- The body of R89's loop where a command word is expected. -/
def acceptCommandWord (w : Word) (s : State) : Host.Outcome State Fault Refusal :=
  match decodeFirst w with
  | .stringHeader x y len => .next (s.setPort (some { x := x, y := y, len := len, payload := [] }) s.input)
  | .command i => exec i (s.setPort none s.input)
  | .noCommand r => execNoCommand r (s.setPort none s.input)

/-- The body of R89's loop for one word. -/
def acceptWord (w : Word) (s : State) : Host.Outcome State Fault Refusal :=
  match s.pending with
  | none => acceptCommandWord w s
  | some p =>
    if p.need = 0 then acceptCommandWord w s
    else if (p.push w).need = 0 then exec (p.push w).command (s.setPort none s.input)
    else .next (s.setPort (some (p.push w)) s.input)

/-- One event of the port: a word, a reset, or a word with a reset while the block acts on it (R190). -/
def acceptEvent (e : PortEvent) (s : State) : Host.Outcome State Fault Refusal :=
  match e with
  | .word w => acceptWord w s
  | .reset => .next (resetBlock s.input s)
  | .cutWord w taken => cutShort taken s.input s (acceptWord w s)

/-- R89's loop over a list of events, in order. -/
def acceptAll (events : List PortEvent) (s : State) : Host.Outcome State Fault Refusal :=
  match events with
  | [] => .next s
  | e :: rest =>
    match acceptEvent e s with
    | .next t => acceptAll rest t
    | .fault f => .fault f
    | .refused r => .refused r

end Sys2Proof.Machine
end

