-- ==== Sys2Proof/Safety.lean ====
section
/-! DEFINITION. What a good state and a safe run are, and the vocabulary the statements use: the invariant (10_state.md R25,
R27, R34, R37 c), which pixels a shape covers (41_fb_shapes.md), where the characters of a string stand (42_fb_text.md R133),
and what two states share. -/

namespace Sys2Proof.Machine

/-! ### The invariant -/

/-- `POS` and `PREV` are lattice points (R27). -/
def State.onLattice (s : State) : Bool :=
  Config.latticeX s.posX && Config.latticeY s.posY && Config.latticeX s.prevX && Config.latticeY s.prevY

/-- A pending DRAWSTR still owes a payload word (R89). -/
def State.pendingOwes (s : State) : Bool :=
  match s.pending with
  | none => true
  | some p => decide (0 < p.need)

/-- The invariant: positions on the lattice, `STEP <= 14` (R25, R27), the buffer in its canonical form, and a pending
DRAWSTR not yet complete. -/
def State.Inv (s : State) : Prop :=
  s.onLattice = true ∧ s.stepCount.toNat ≤ 14 ∧ Memory.wf s.buf = true ∧ s.pendingOwes = true

/-- A safe step: it answers a next state (60_exceptions.md R170). -/
def SafeStep (s : State) : Prop := ∃ t, step s = .next t

/-! ### Which pixels a shape covers -/

/-- The `side × side` block with top-left corner `(x, y)` (R120). -/
def inSquare (x y side a b : Nat) : Bool :=
  decide (x ≤ a) && decide (a < x + side) && decide (y ≤ b) && decide (b < y + side)

/-- The two diagonals of the 8×8 box at `(x, y)` (R122). -/
def onCross (x y a b : Nat) : Bool :=
  inSquare x y 8 a b && (decide (a - x = b - y) || decide ((a - x) + (b - y) = 7))

/-- Characters that fit on the first line from column `x`: as many cells of 5 as end at or before column 127 (R133). -/
def firstLineCells (x : Nat) : Nat := (128 - x) / 5

/-- The cell of character `k` of a string started at `(x, y)`, in closed form: `firstLineCells x` characters on the line of
`(x, y)`, then 25 a line from column 0, lines 5 rows apart (R133). -/
def stringCell (x y k : Nat) : Nat × Nat :=
  if k < firstLineCells x then (x + 5 * k, y)
  else (5 * ((k - firstLineCells x) % 25), y + 5 * (1 + (k - firstLineCells x) / 25))

/-- Character `k` is drawn exactly when its line fits on the display (R133). -/
def cellDrawn (x y k : Nat) : Bool := decide ((stringCell x y k).2 + 5 ≤ 64)

/-- The pixel `(a, b)` lies in the 5×5 cell with top-left corner `cell`. -/
def inCell (cell : Nat × Nat) (a b : Nat) : Bool := inSquare cell.1 cell.2 5 a b

/-! ### What two states share -/

/-- The robot unit's registers agree. -/
def SameRobot (s t : State) : Prop :=
  s.posX = t.posX ∧ s.posY = t.posY ∧ s.prevX = t.prevX ∧ s.prevY = t.prevY ∧
    s.dir = t.dir ∧ s.stepCount = t.stepCount ∧ s.mode = t.mode

/-- The command port and the decoder agree. -/
def SamePort (s t : State) : Prop := s.pending = t.pending ∧ s.input = t.input

/-- Every pixel of the display agrees. -/
def SamePixels (s t : State) : Prop := ∀ a b, getPixel a b s = getPixel a b t

/-- Bytes that hold no pixel of a set are as before: for every index to which no in-range pixel of the set encodes. -/
def OtherBytesKept (covered : Nat → Nat → Prop) (s t : State) : Prop :=
  ∀ i, (∀ a b, inRange a b = true → covered a b → pixelIndex a b ≠ i) → t.bufByte i = s.bufByte i

/-- `n` times the same command, stopping at the first that does not answer a next state. -/
def execTimes (n : Nat) (i : Instr) (s : State) : Host.Outcome State Fault Refusal :=
  match n with
  | 0 => .next s
  | k + 1 =>
    match exec i s with
    | .next t => execTimes k i t
    | .fault f => .fault f
    | .refused r => .refused r

end Sys2Proof.Machine
end

