-- ==== Sys2Proof/Certificates/Slice0/Obligations.lean ====
section
/-! DEFINITION. The statements for the provers. Each names the rule of spec/ it formalises. An instruction's statement gives
its encoding with every value of the fields (the unread ones too), and its result as the whole next state, so that it also
says what the instruction leaves alone: a state written `s.setBuf m`, `s.setPosX v`, `s.emit o` differs from `s` in that one
field only. Bytes of memory are read with `State.bufByte`, pixels with `getPixel`. -/

open Sys2Proof Sys2Proof.Machine

/-! ### Framebuffer commands -/

/-- R110, with R53 and R55: SETPX gives the pixel it names the value, if it is in range, and touches no other pixel, no
other byte and no other state. -/
def Obligations.SetpxWritesOnePixel : Prop :=
  (∀ x y c : Byte, decodeFirst (headerWord 0x01 x y c) = .command (.setpx x y (c.getLsbD 0))) ∧
  ∀ (x y : Byte) (on : Bool) (s : State), ∃ m, exec (.setpx x y on) s = .next (s.setBuf m) ∧
    (∀ a b, getPixel a b (s.setBuf m) =
      if a = x.toNat ∧ b = y.toNat ∧ a < 128 ∧ b < 64 then on else getPixel a b s) ∧
    (∀ i, ¬(x.toNat < 128 ∧ y.toNat < 64 ∧ i = pixelIndex x.toNat y.toNat) →
      (s.setBuf m).bufByte i = s.bufByte i) ∧
    (¬(x.toNat < 128 ∧ y.toNat < 64) → m = s.buf)

/-- R111, with R54: GETPX emits one response byte, the pixel's bit in range and 0 out of range, and changes nothing else. -/
def Obligations.GetpxRespondsPixel : Prop :=
  (∀ x y c : Byte, decodeFirst (headerWord 0x02 x y c) = .command (.getpx x y)) ∧
  ∀ (x y : Byte) (s : State), exec (.getpx x y) s = .next (s.emit (.rsp
    (if x.toNat < 128 ∧ y.toNat < 64 ∧ (s.bufByte (y.toNat / 8 + x.toNat * 8)).getLsbD (y.toNat % 8) = true
      then 0x01 else 0x00)))

/-- R112: FILL writes every byte of the buffer with 0xFF or 0x00, so every pixel with its value; the result is the same
buffer whatever was there before; nothing else changes. -/
def Obligations.FillWritesEveryPixel : Prop :=
  (∀ a b c : Byte, decodeFirst (headerWord 0x03 a b c) = .command (.fill (c.getLsbD 0))) ∧
  ∀ value : Bool, ∃ m, ∀ s : State, exec (.fill value) s = .next (s.setBuf m) ∧
    (∀ i, i < 1024 → (s.setBuf m).bufByte i = if value then 0xFF else 0x00) ∧
    ∀ a b, getPixel a b (s.setBuf m) = (value && inRange a b)

/-- R112's property: the last FILL decides ("`fill(true)` then `fill(false)` leaves every pixel false"). -/
def Obligations.LastFillDecides : Prop :=
  ∀ (v v' : Bool) (s : State), ∃ t, exec (.fill v) s = .next t ∧ exec (.fill v') t = exec (.fill v') s

/-- R113, with R67: PRESENT emits one frame, the 1024 bytes of the buffer in ascending order with PAGES 8 and WIDTH 128, and
changes nothing else. -/
def Obligations.PresentEmitsSnapshot : Prop :=
  (∀ a b c : Byte, decodeFirst (headerWord 0x09 a b c) = .command .present) ∧
  ∀ s : State, ∃ f : Frame, exec .present s = .next (s.emit (.frame f)) ∧
    f.bytes.length = 1024 ∧ (∀ i, i < 1024 → f.bytes[i]? = some (s.bufByte i)) ∧ f.pages = 8 ∧ f.width = 128

/-- R120: DRAWSQ sets the in-range pixels of the block `x ≤ column < x + side`, `y ≤ row < y + side`, with sums that do not
wrap, and changes no other pixel, no byte that holds no pixel of the block, and no other state. -/
def Obligations.DrawsqSetsBlock : Prop :=
  (∀ x y c : Byte, decodeFirst (headerWord 0x04 x y c) = .command (.drawsq x y c)) ∧
  ∀ (x y side : Byte) (s : State), ∃ m, exec (.drawsq x y side) s = .next (s.setBuf m) ∧
    (∀ a b, a < 128 → b < 64 → getPixel a b (s.setBuf m) =
      if x.toNat ≤ a ∧ a < x.toNat + side.toNat ∧ y.toNat ≤ b ∧ b < y.toNat + side.toNat then true
      else getPixel a b s) ∧
    OtherBytesKept (fun a b => inSquare x.toNat y.toNat side.toNat a b) s (s.setBuf m)

/-- R121: ERASESQ clears the in-range pixels of the block, and changes nothing else. -/
def Obligations.ErasesqClearsBlock : Prop :=
  (∀ x y c : Byte, decodeFirst (headerWord 0x05 x y c) = .command (.erasesq x y c)) ∧
  ∀ (x y side : Byte) (s : State), ∃ m, exec (.erasesq x y side) s = .next (s.setBuf m) ∧
    (∀ a b, a < 128 → b < 64 → getPixel a b (s.setBuf m) =
      if x.toNat ≤ a ∧ a < x.toNat + side.toNat ∧ y.toNat ≤ b ∧ b < y.toNat + side.toNat then false
      else getPixel a b s) ∧
    OtherBytesKept (fun a b => inSquare x.toNat y.toNat side.toNat a b) s (s.setBuf m)

/-- R123, the spec's own inference from R120, R121 and R56 (90_conflicts.md C2): after DRAWSQ and ERASESQ of one block, its
in-range pixels are clear and the others as before; the buffer's pixels are all as before exactly when the in-range pixels
of the block were clear. -/
def Obligations.EraseUndoesDrawOnClearBlock : Prop :=
  ∀ (x y side : Byte) (s : State), ∃ t u, exec (.drawsq x y side) s = .next t ∧ exec (.erasesq x y side) t = .next u ∧
    (∀ a b, a < 128 → b < 64 → getPixel a b u =
      if inSquare x.toNat y.toNat side.toNat a b then false else getPixel a b s) ∧
    (SamePixels s u ↔
      ∀ a b, a < 128 → b < 64 → inSquare x.toNat y.toNat side.toNat a b = true → getPixel a b s = false)

/-- R122: DRAWX sets the in-range pixels `(x+i, y+i)` and `(x+(7-i), y+i)` for `i` in `[0, 8)`, and changes nothing else. -/
def Obligations.DrawxSetsDiagonals : Prop :=
  (∀ x y c : Byte, decodeFirst (headerWord 0x06 x y c) = .command (.drawx x y)) ∧
  ∀ (x y : Byte) (s : State), ∃ m, exec (.drawx x y) s = .next (s.setBuf m) ∧
    (∀ i, i < 8 → y.toNat + i < 64 →
      (x.toNat + i < 128 → getPixel (x.toNat + i) (y.toNat + i) (s.setBuf m) = true) ∧
      (x.toNat + (7 - i) < 128 → getPixel (x.toNat + (7 - i)) (y.toNat + i) (s.setBuf m) = true)) ∧
    (∀ a b, (¬∃ i < 8, (a = x.toNat + i ∨ a = x.toNat + (7 - i)) ∧ b = y.toNat + i) →
      getPixel a b (s.setBuf m) = getPixel a b s) ∧
    OtherBytesKept (fun a b => ∃ i < 8, (a = x.toNat + i ∨ a = x.toNat + (7 - i)) ∧ b = y.toNat + i) s (s.setBuf m)

/-- R130 and R131: which characters select which glyph row, and the glyph's columns, blank for every other character;
whatever the open glyph ROM holds. The codes are the spec's, which marks them as general knowledge
(notes/assumptions/16.md). -/
def Obligations.GlyphLookup : Prop :=
  ∀ (glyph : Nat → Nat → Byte) (ch : Byte) (i : Nat),
    glyphRow ch =
      (if 0x41 ≤ ch ∧ ch ≤ 0x5A then some (11 + (ch.toNat - 0x41))
      else if 0x30 ≤ ch ∧ ch ≤ 0x39 then some (1 + (ch.toNat - 0x30))
      else none) ∧
    (∀ row, glyphRow ch = some row → 1 ≤ row ∧ row ≤ 36 ∧ ∀ j < 5, (glyphCol glyph ch i).getLsbD j = (glyph row i).getLsbD j) ∧
    (glyphRow ch = none → glyphCol glyph ch i = 0)

/-- R132: DRAWCH writes each in-range pixel `(x+i, y+j)` of the 5×5 cell with glyph bit `j` of column `i`, set or cleared,
and changes nothing else. -/
def Obligations.DrawchDrawsCell : Prop :=
  (∀ x y c : Byte, decodeFirst (headerWord 0x07 x y c) = .command (.drawch x y c)) ∧
  ∀ (x y ch : Byte) (s : State), ∃ m, exec (.drawch x y ch) s = .next (s.setBuf m) ∧
    (∀ i j, i < 5 → j < 5 → x.toNat + i < 128 → y.toNat + j < 64 →
      getPixel (x.toNat + i) (y.toNat + j) (s.setBuf m) = (glyphCol Config.glyph ch i).getLsbD j) ∧
    (∀ a b, inCell (x.toNat, y.toNat) a b = false → getPixel a b (s.setBuf m) = getPixel a b s) ∧
    OtherBytesKept (fun a b => inCell (x.toNat, y.toNat) a b) s (s.setBuf m)

/-- R131 and R132: a character with no glyph clears the in-range pixels of its cell, whatever the glyph ROM holds. -/
def Obligations.UnmappedCharacterClearsCell : Prop :=
  ∀ (x y ch : Byte) (s : State), glyphRow ch = none → ∃ t, exec (.drawch x y ch) s = .next t ∧
    ∀ i j, i < 5 → j < 5 → getPixel (x.toNat + i) (y.toNat + j) t = false

/-- R133: DRAWSTR draws character `k` in the cell of the closed form `stringCell` (the model's summary of R133's loop) when
its line fits on the display, every such cell lies wholly on the display, no other pixel changes, no byte without a pixel of
a drawn cell changes, and no other state changes. -/
def Obligations.DrawstrDrawsWrappedCells : Prop :=
  (∀ (x y len : Byte), decodeFirst (headerWord 0x08 x y len) =
    if len = 0 then .command (.drawstr x y []) else .stringHeader x y len) ∧
  ∀ (x y : Byte) (chars : List Byte) (s : State), ∃ m, exec (.drawstr x y chars) s = .next (s.setBuf m) ∧
    (∀ k (hk : k < chars.length), cellDrawn x.toNat y.toNat k = true →
      (stringCell x.toNat y.toNat k).1 + 5 ≤ 128 ∧ (stringCell x.toNat y.toNat k).2 + 5 ≤ 64 ∧
      ∀ i j, i < 5 → j < 5 →
        getPixel ((stringCell x.toNat y.toNat k).1 + i) ((stringCell x.toNat y.toNat k).2 + j) (s.setBuf m) =
          (glyphCol Config.glyph chars[k] i).getLsbD j) ∧
    (∀ a b, (∀ k < chars.length, cellDrawn x.toNat y.toNat k = true → inCell (stringCell x.toNat y.toNat k) a b = false) →
      getPixel a b (s.setBuf m) = getPixel a b s) ∧
    OtherBytesKept
      (fun a b => ∃ k < chars.length, cellDrawn x.toNat y.toNat k = true ∧ inCell (stringCell x.toNat y.toNat k) a b = true)
      s (s.setBuf m)

/-- R51, the spec's own inference from R50: for in-range coordinates the byte index is `x[6:0]` above `y[5:3]` and the bit
position is `y[2:0]`. -/
def Obligations.EncoderIsWiring : Prop :=
  ∀ x y : Byte, x.toNat < 128 → y.toNat < 64 →
    pixelIndex x.toNat y.toNat = (x.extractLsb' 0 7 ++ y.extractLsb' 3 3).toNat ∧
    pixelBit y.toNat = (y.extractLsb' 0 3).toNat

/-- R56, the spec's own inference from R50: the in-range pixels and the pairs of a byte index below 1024 and a bit below 8
correspond one to one, with the inverse the rule gives. -/
def Obligations.OnePixelOneBit : Prop :=
  (∀ x y, x < 128 → y < 64 → pixelIndex x y < 1024 ∧ pixelBit y < 8 ∧
    x = pixelIndex x y / 8 ∧ y = 8 * (pixelIndex x y % 8) + pixelBit y) ∧
  ∀ i k, i < 1024 → k < 8 → ∃! p : Nat × Nat,
    p.1 < 128 ∧ p.2 < 64 ∧ pixelIndex p.1 p.2 = i ∧ pixelBit p.2 = k

/-- The source's round trip (R56, R110, R111): SETPX of an in-range pixel, then GETPX of it, responds the value written. -/
def Obligations.SetThenGetReturnsValue : Prop :=
  ∀ (x y : Byte) (on : Bool) (s : State), x.toNat < 128 → y.toNat < 64 →
    ∃ t u, exec (.setpx x y on) s = .next t ∧ exec (.getpx x y) t = .next u ∧
      u = t.emit (.rsp (if on then 0x01 else 0x00))

/-! ### Robot commands -/

/-- R140: MVUP. -/
def Obligations.MvupMovesOrSaturates : Prop :=
  (∀ a b c : Byte, decodeFirst (headerWord 0x10 a b c) = .command .mvup) ∧
  ∀ s : State, exec .mvup s = .next (if s.posY.toNat < 16 then s else s.setPosY (s.posY - 8))

/-- R141: MVDOWN. -/
def Obligations.MvdownMovesOrSaturates : Prop :=
  (∀ a b c : Byte, decodeFirst (headerWord 0x11 a b c) = .command .mvdown) ∧
  ∀ s : State, exec .mvdown s = .next (if s.posY.toNat > 48 then s else s.setPosY (s.posY + 8))

/-- R142: MVLEFT. -/
def Obligations.MvleftMovesOrSaturates : Prop :=
  (∀ a b c : Byte, decodeFirst (headerWord 0x12 a b c) = .command .mvleft) ∧
  ∀ s : State, exec .mvleft s = .next (if s.posX.toNat < 16 then s else s.setPosX (s.posX - 8))

/-- R143 (90_conflicts.md C1): MVRIGHT, with the guard `POS_X > 104`. -/
def Obligations.MvrightMovesOrSaturates : Prop :=
  (∀ a b c : Byte, decodeFirst (headerWord 0x13 a b c) = .command .mvright) ∧
  ∀ s : State, exec .mvright s = .next (if s.posX.toNat > 104 then s else s.setPosX (s.posX + 8))

/-- R144: SETMODE writes MODE with bit 0 of `c` and nothing else. -/
def Obligations.SetmodeWritesMode : Prop :=
  (∀ a b c : Byte, decodeFirst (headerWord 0x14 a b c) = .command (.setmode (c.getLsbD 0))) ∧
  ∀ (m : Bool) (s : State), exec (.setmode m) s = .next (s.setMode (if m then 1 else 0)) ∧
    (s.setMode (if m then 1 else 0)).indAuto = m ∧ (s.setMode (if m then 1 else 0)).indManual = !m

/-- R145: TICK: nothing in Manual; in Automatic a counted horizontal step while `STEP < 14`, else a reversal with a step
down. Every field is given, for every state. -/
def Obligations.TickSweeps : Prop :=
  (∀ a b c : Byte, decodeFirst (headerWord 0x15 a b c) = .command .tick) ∧
  ∀ s : State, exec .tick s = .next
    (if s.mode = 0 then s
    else if s.stepCount.toNat < 14 then
      (s.setPosX
        (if s.dir = 0 then (if s.posX.toNat > 104 then s.posX else s.posX + 8)
        else (if s.posX.toNat < 16 then s.posX else s.posX - 8))).setStepCount (s.stepCount + 1)
    else ((s.setPosY (if s.posY.toNat > 48 then s.posY else s.posY + 8)).setDir (1 - s.dir)).setStepCount 0)

/-- R146, the spec's own inference from R141 to R143 and R145: from `(8, y0)` with DIR 0, STEP 0, MODE 1, the first 13 TICKs
move right one cell each, the 14th only counts, the 15th reverses and moves down if `y0 < 56`; and after `15 k` TICKs from
`(8, 8)`, for `k <= 6`, the state is the one the rule gives. -/
def Obligations.SweepCoversRowIn15Ticks : Prop :=
  ∀ s : State, s.posX = 8 → s.dir = 0 → s.stepCount = 0 → s.mode = 1 →
    (∀ n, n ≤ 13 → execTimes n .tick s = .next ((s.setPosX (BitVec.ofNat 8 (8 + 8 * n))).setStepCount (BitVec.ofNat 4 n))) ∧
    execTimes 14 .tick s = .next ((s.setPosX 112).setStepCount 14) ∧
    execTimes 15 .tick s = .next
      ((s.setPosX 112).setPosY (if s.posY.toNat > 48 then s.posY else s.posY + 8) |>.setDir 1) ∧
    (s.posY = 8 → ∀ k, k ≤ 6 → execTimes (15 * k) .tick s = .next
      (((s.setPosX (if k % 2 = 1 then 112 else 8)).setPosY (BitVec.ofNat 8 (8 + 8 * k))).setDir (BitVec.ofNat 1 k)))

/-- R147, the spec's own inference from R141 and R145: on the bottom row no number of TICKs moves the robot vertically,
leaves Automatic mode or touches anything but POS_X, DIR and STEP; and from the left end of the row the sweep repeats every
30 TICKs. -/
def Obligations.BottomRowSweepsForever : Prop :=
  (∀ (n : Nat) (s : State), s.posY = 56 → s.mode = 1 →
    ∃ x d c, execTimes n .tick s = .next (((s.setPosX x).setDir d).setStepCount c)) ∧
  ∀ (n : Nat) (s : State), s.posX = 8 → s.posY = 56 → s.dir = 0 → s.stepCount = 0 → s.mode = 1 →
    execTimes (30 * n) .tick s = .next s

/-- R25's invariant: STEP returns to 0 exactly when a sweep completes, which is when DIR flips; only TICK does either. -/
def Obligations.StepClearsExactlyAtReversal : Prop :=
  ∀ (i : Instr) (s : State), ∃ t, exec i s = .next t ∧
    (t.dir ≠ s.dir ↔ i = .tick ∧ s.mode = 1 ∧ 14 ≤ s.stepCount.toNat) ∧
    (t.dir ≠ s.dir → t.stepCount = 0) ∧
    (t.stepCount = 0 → s.stepCount ≠ 0 → t.dir ≠ s.dir)

/-! ### Host commands, redraw, register read -/

/-- R150: CMD up. -/
def Obligations.CmdUpIsManualThenMove : Prop :=
  (∀ a b : Byte, decodeFirst (headerWord 0x20 a b 0x00) = .command .cmdUp) ∧
  ∀ s : State, exec .cmdUp s = .next
    ((s.setMode 0).setPosY (if s.posY.toNat < 16 then s.posY else s.posY - 8))

/-- R151: CMD left. -/
def Obligations.CmdLeftIsManualThenMove : Prop :=
  (∀ a b : Byte, decodeFirst (headerWord 0x20 a b 0x01) = .command .cmdLeft) ∧
  ∀ s : State, exec .cmdLeft s = .next
    ((s.setMode 0).setPosX (if s.posX.toNat < 16 then s.posX else s.posX - 8))

/-- R152: CMD right. -/
def Obligations.CmdRightIsManualThenMove : Prop :=
  (∀ a b : Byte, decodeFirst (headerWord 0x20 a b 0x02) = .command .cmdRight) ∧
  ∀ s : State, exec .cmdRight s = .next
    ((s.setMode 0).setPosX (if s.posX.toNat > 104 then s.posX else s.posX + 8))

/-- R153: CMD down. -/
def Obligations.CmdDownIsManualThenMove : Prop :=
  (∀ a b : Byte, decodeFirst (headerWord 0x20 a b 0x03) = .command .cmdDown) ∧
  ∀ s : State, exec .cmdDown s = .next
    ((s.setMode 0).setPosY (if s.posY.toNat > 48 then s.posY else s.posY + 8))

/-- R154: CMD auto writes MODE and nothing else. -/
def Obligations.CmdAutoWritesMode : Prop :=
  (∀ a b : Byte, decodeFirst (headerWord 0x20 a b 0x04) = .command .cmdAuto) ∧
  ∀ s : State, exec .cmdAuto s = .next (s.setMode 1)

/-- R155: a CMD with a code from 5 on is one word and changes nothing, not even MODE. -/
def Obligations.UnrecognisedCmdIsIgnored : Prop :=
  ∀ (a b c : Byte) (rest : List PortEvent) (s : State), 5 ≤ c.toNat → s.pending = none →
    s.input = .word (headerWord 0x20 a b c) :: rest → step s = .next (s.setPort none rest)

/-- R158 and R85: a word whose opcode is not in the table is one word and changes nothing. -/
def Obligations.ReservedOpcodeIsIgnored : Prop :=
  ∀ (w : Word) (rest : List PortEvent) (s : State),
    opField w ∉ [0x01, 0x02, 0x03, 0x04, 0x05, 0x06, 0x07, 0x08, 0x09, 0x10, 0x11, 0x12, 0x13, 0x14, 0x15, 0x16, 0x20,
      0x30] →
    s.pending = none → s.input = .word w :: rest → step s = .next (s.setPort none rest)

/-- R156: RENDER of a changed position clears the old square, sets the new one, records the position, and emits the frame of
the buffer after both; otherwise it does nothing. POS_CHANGED is 0 afterwards in every case. -/
def Obligations.RenderRedrawsChangedPosition : Prop :=
  (∀ a b c : Byte, decodeFirst (headerWord 0x16 a b c) = .command .render) ∧
  ∀ s : State,
    (s.posX = s.prevX ∧ s.posY = s.prevY → exec .render s = .next s ∧ s.posChanged = false) ∧
    (¬(s.posX = s.prevX ∧ s.posY = s.prevY) → ∃ m f,
      exec .render s = .next (((s.setBuf m).setPrev s.posX s.posY).emit (.frame f)) ∧
      (((s.setBuf m).setPrev s.posX s.posY).emit (.frame f)).posChanged = false ∧
      (∀ a b, a < 128 → b < 64 → getPixel a b (s.setBuf m) =
        if inSquare s.posX.toNat s.posY.toNat 8 a b then true
        else if inSquare s.prevX.toNat s.prevY.toNat 8 a b then false
        else getPixel a b s) ∧
      OtherBytesKept
        (fun a b => inSquare s.posX.toNat s.posY.toNat 8 a b = true ∨ inSquare s.prevX.toNat s.prevY.toNat 8 a b = true)
        s (s.setBuf m) ∧
      f.bytes.length = 1024 ∧ (∀ i, i < 1024 → f.bytes[i]? = some ((s.setBuf m).bufByte i)) ∧ f.pages = 8 ∧ f.width = 128)

/-- R157, with R33: RDREG emits the register's value, zero-extended, 0 for an unassigned number, and changes nothing. -/
def Obligations.RdregRespondsRegister : Prop :=
  (∀ a b c : Byte, decodeFirst (headerWord 0x30 a b c) = .command (.rdreg c)) ∧
  ∀ (r : Byte) (s : State), exec (.rdreg r) s = .next (s.emit (.rsp
    (([s.posX, s.posY, s.prevX, s.prevY, s.dir.setWidth 8, s.stepCount.setWidth 8, s.mode.setWidth 8, s.status,
      0x80, 0x40, 0x08][r.toNat]?).getD 0x00)))

/-- R29, R30, R31: the flags and the bits of STATUS, whose legal values are 0x01, 0x02, 0x05 and 0x06. -/
def Obligations.StatusIsComputedFromRegisters : Prop :=
  ∀ s : State,
    s.indManual = decide (s.mode = 0) ∧ s.indAuto = decide (s.mode = 1) ∧ s.indManual = !s.indAuto ∧
    s.posChanged = decide (s.posX ≠ s.prevX ∨ s.posY ≠ s.prevY) ∧
    s.status.getLsbD 0 = s.indManual ∧ s.status.getLsbD 1 = s.indAuto ∧ s.status.getLsbD 2 = s.posChanged ∧
    (∀ k, 3 ≤ k → s.status.getLsbD k = false) ∧ s.status ∈ [0x01, 0x02, 0x05, 0x06]

/-! ### Encoding and the command stream -/

/-- Decode and encode agree (R80 to R84, R87, R88): the words of a well-formed instruction, whatever follows them on the
port, are fetched as that instruction. -/
def Obligations.FetchOfEncodeIsInstruction : Prop :=
  ∀ i : Instr, i.wf = true →
    decode (encode i) = .ok i ∧ ∀ rest, fetchFirst ((encode i).map .word ++ rest) = .command i rest

/-- The decoder answers only well-formed instructions (R82, R87). -/
def Obligations.DecodedInstructionsAreWellFormed : Prop :=
  (∀ (ws : List Word) (i : Instr), decode ws = .ok i → i.wf = true) ∧
  ∀ (pending : Option PendingString) (input rest : List PortEvent) (i : Instr) (taken : Nat),
    fetch pending input = .command i rest ∨ fetch pending input = .cutCommand i taken rest → i.wf = true

/-- R86: a word selects the same command whatever stands in the fields and bits its format does not read: formats N, B, P,
PB and I, with CMD and RDREG the two commands of format I. -/
def Obligations.ReservedFieldsAreIgnored : Prop :=
  ∀ w v : Word, opField w = opField v →
    (opField w ∈ [0x09, 0x10, 0x11, 0x12, 0x13, 0x15, 0x16] → decodeFirst w = decodeFirst v) ∧
    (opField w ∈ [0x03, 0x14] → w.getLsbD 0 = v.getLsbD 0 → decodeFirst w = decodeFirst v) ∧
    (opField w ∈ [0x02, 0x06] → xField w = xField v → yField w = yField v → decodeFirst w = decodeFirst v) ∧
    (opField w = 0x01 → xField w = xField v → yField w = yField v → w.getLsbD 0 = v.getLsbD 0 →
      decodeFirst w = decodeFirst v) ∧
    (opField w ∈ [0x20, 0x30] → cField w = cField v → decodeFirst w = decodeFirst v)

/-- Words written out bit by bit from 30_encoding.md R80 to R84 decode to the instructions they stand for. -/
def Obligations.WordsDecodeAsTheTableSays : Prop :=
  decode [0b00000001_00000101_00001010_00000001] = .ok (.setpx 5 10 true) ∧
  decode [0b00000100_00001000_00001000_00001000] = .ok (.drawsq 8 8 8) ∧
  decode [0b00001000_01110110_00000000_00000011, 0b00000000_00110001_01000010_01000001] =
    .ok (.drawstr 118 0 [0x41, 0x42, 0x31]) ∧
  decode [0b00010101_00000000_00000000_00000000] = .ok .tick ∧
  decode [0b00100000_00000000_00000000_00000100] = .ok .cmdAuto ∧
  decode [0b00110000_00000000_00000000_00000111] = .ok (.rdreg 7)

/-- A step runs the decoded instruction: when the words at the head of the port are a whole instruction `i`, the step is
`exec` of `i` on the state with those words taken; and payload words that complete a pending DRAWSTR run it (R10, R89). That
a step takes a whole command from a list is the model's choice (notes/assumptions/5.md, 6.md). -/
def Obligations.StepRunsDecodedCommand : Prop :=
  (∀ (s : State) (ws : List Word) (rest : List PortEvent) (i : Instr), s.pending = none →
    s.input = ws.map .word ++ rest → ws.length = commandLength (ws.headD 0) → decode ws = .ok i →
    step s = exec i (s.setPort none rest)) ∧
  ∀ (s : State) (p : PendingString) (ws : List Word) (rest : List PortEvent), s.pending = some p → 0 < p.need →
    ws.length = p.need → s.input = ws.map .word ++ rest →
    step s = exec (.drawstr p.x p.y (unpackChars p.len.toNat (p.payload ++ ws))) (s.setPort none rest)

/-- R89: a DRAWSTR whose payload is not complete has done nothing: only the decoder and the port have changed. The port as a
list, and the wait as one step, are the model's choice (notes/assumptions/5.md, 6.md). -/
def Obligations.IncompleteStringOnlyWaits : Prop :=
  ∀ (s : State) (x y len : Byte) (payload : List Word), s.pending = none → payload.length < payloadWords len →
    s.input = (headerWord 0x08 x y len :: payload).map .word →
    step s = .next (s.setPort (some { x := x, y := y, len := len, payload := payload }) [])

/-- R89 as a refinement: stepping until the port is empty is the same as R89's loop over its events, one at a time. Resets
among them are the model's choice (notes/assumptions/5.md, 9.md). -/
def Obligations.StepsRefineStreamDecoder : Prop :=
  ∀ s : State, Host.Core.run Sys2Proof.core s.input.length s = acceptAll s.input (s.setPort s.pending [])

/-- R89 as a relation every step keeps: what R89's loop makes of the events on the port is the same before and after a step.
Resets among them are the model's choice (notes/assumptions/5.md, 9.md). -/
def Obligations.EveryStepKeepsStreamMeaning : Prop :=
  ∀ s t : State, step s = .next t →
    acceptAll s.input (s.setPort s.pending []) = acceptAll t.input (t.setPort t.pending [])

/-- R10 and R62: a step takes events from the front of the port and never puts one back (the port as a list:
notes/assumptions/5.md). -/
def Obligations.StepTakesFromFrontOfPort : Prop :=
  ∀ s : State, ∃ t taken, step s = .next t ∧ s.input = taken ++ t.input

/-- R194: outputs appear in command order and none is lost: a step only appends to what was emitted, at most one output. One
list of outputs, kept across a reset, is the model's choice (notes/assumptions/8.md). -/
def Obligations.OutputsAreOnlyAppended : Prop :=
  ∀ s : State, ∃ t more, step s = .next t ∧ t.out = s.out ++ more ∧ more.length ≤ 1

/-- R181: with nothing on the command port (no command presented) the block holds its state for any number of steps. -/
def Obligations.IdleBlockHoldsState : Prop :=
  ∀ (n : Nat) (s : State), s.input = [] → Host.Core.run Sys2Proof.core n s = .next s

/-- R170: no step, and so no run of any length, ever faults or refuses, in any state. -/
def Obligations.NoRunEverStops : Prop :=
  ∀ (n : Nat) (s : State), ∃ t, Host.Core.run Sys2Proof.core n s = .next t

/-! ### Reset -/

/-- R38, for every choice of the open reset parameters: the registers at their reset values, nothing pending, no change of
position pending, the flags and STATUS following. The buffer is unspecified, so nothing is said of it. -/
def Obligations.ResetValues : Prop :=
  ∀ (p : ResetParams) (k : Nat) (input : List PortEvent) (out : List Output),
    let s := State.resetWith p k input out
    s.posX = p.initX ∧ s.posY = p.initY ∧ s.prevX = p.initX ∧ s.prevY = p.initY ∧ s.dir = p.initDir ∧ s.stepCount = 0 ∧
    s.mode = p.initMode ∧ s.pending = none ∧ s.payloadOwed = 0 ∧ s.posChanged = false ∧
    s.indManual = (p.initMode == 0) ∧ s.indAuto = (p.initMode == 1) ∧
    s.status = (if p.initMode = 0 then 0x01 else 0x02)

/-- The model's choices at reset: the open reset parameters at the spec's defaults (notes/assumptions/1.md), cell (8, 8),
increasing, Manual, so STATUS is 0x01; every byte of the buffer the free byte of reset number 0 (notes/assumptions/2.md);
empty ports (notes/assumptions/5.md, 8.md). -/
def Obligations.ResetStateIsDefault : Prop :=
  State.reset.posX = 8 ∧ State.reset.posY = 8 ∧ State.reset.prevX = 8 ∧ State.reset.prevY = 8 ∧ State.reset.dir = 0 ∧
  State.reset.stepCount = 0 ∧ State.reset.mode = 0 ∧ State.reset.status = 0x01 ∧ State.reset.pending = none ∧
  (∀ i, State.reset.bufByte i = Config.resetByte 0 i) ∧ State.reset.input = [] ∧ State.reset.out = []

/-- R190 with the model's choices of notes/assumptions/1.md, 5.md, 8.md and 9.md: a reset, also one that comes while a
DRAWSTR waits for payload, puts the block in the state of R38 (with the model's reset parameters), discards the DRAWSTR, and
loses nothing already emitted; so does one that comes while the block acts on a payload word (a DRAWSTR emits nothing) or on
a word that completes no command. -/
def Obligations.ResetDiscardsEverything : Prop :=
  (∀ (s : State) (rest : List PortEvent), s.input = .reset :: rest →
    step s = .next (State.resetWith Config.resetParams (s.resets + 1) rest s.out)) ∧
  (∀ (s : State) (p : PendingString) (ws : List Word) (rest : List PortEvent), s.pending = some p → ws.length < p.need →
    s.input = ws.map .word ++ .reset :: rest →
    step s = .next (State.resetWith Config.resetParams (s.resets + 1) rest s.out)) ∧
  (∀ (s : State) (p : PendingString) (ws : List Word) (w : Word) (taken : Nat) (rest : List PortEvent),
    s.pending = some p → ws.length < p.need → s.input = ws.map .word ++ .cutWord w taken :: rest →
    step s = .next (State.resetWith Config.resetParams (s.resets + 1) rest s.out)) ∧
  ∀ (s : State) (w : Word) (taken : Nat) (rest : List PortEvent), s.pending = none →
    s.input = .cutWord w taken :: rest → (∀ i, decodeFirst w ≠ .command i) →
    step s = .next (State.resetWith Config.resetParams (s.resets + 1) rest s.out)

/-- R190 and U20 with the model's choices of notes/assumptions/1.md, 5.md, 8.md and 9.md: a reset asserted while a command
executes, when `taken` bytes of its output had been taken, puts the block in the state of R38 whatever the command would
have done; a response not yet emitted is never emitted, and a frame partly sent is cut short to the bytes taken. -/
def Obligations.ResetDuringCommandCutsOutput : Prop :=
  ∀ (s : State) (ws : List Word) (w : Word) (taken : Nat) (rest : List PortEvent) (i : Instr), s.pending = none →
    s.input = ws.map .word ++ .cutWord w taken :: rest → (ws ++ [w]).length = commandLength ((ws ++ [w]).headD 0) →
    decode (ws ++ [w]) = .ok i →
    ∃ t more, exec i (s.setPort none rest) = .next t ∧
      step s = .next (State.resetWith Config.resetParams (s.resets + 1) rest (s.out ++ more)) ∧
      (t.out = s.out ∧ more = [] ∨
        (∃ v, t.out = s.out ++ [.rsp v] ∧ more = if taken = 0 then [] else [.rsp v]) ∨
        ∃ f, t.out = s.out ++ [.frame f] ∧ more = if taken = 0 then [] else [.frame { f with bytes := f.bytes.take taken }])

/-! ### The whole machine -/

/-- The invariant holds after reset, for every legal choice of the reset parameters (R27; the canonical form of the buffer
and the pending DRAWSTR are the model's, notes/assumptions/3.md, 13.md). -/
def Obligations.ResetMeetsInvariant : Prop :=
  State.reset.Inv ∧
  ∀ (p : ResetParams) (k : Nat) (input : List PortEvent) (out : List Output), p.legal = true →
    (State.resetWith p k input out).Inv

/-- R27 with R25, the spec's own inference from the command rules: every step keeps the invariant (the canonical form of the
buffer and the pending DRAWSTR are the model's, notes/assumptions/3.md, 13.md): positions on the lattice, `STEP <= 14`, the
buffer in its canonical form, a pending DRAWSTR incomplete. -/
def Obligations.EveryStepKeepsInvariant : Prop :=
  ∀ s t : State, s.Inv → step s = .next t → t.Inv

/-- R39, the write matrix, the spec's own inference from the command rules: each command completes and writes only what the
matrix marks; in particular only GETPX and RDREG respond, and only PRESENT and a RENDER of a changed position emit a frame.
-/
def Obligations.WriteMatrix : Prop :=
  ∀ (i : Instr) (s : State), ∃ t, exec i s = .next t ∧
    t.pending = s.pending ∧ t.input = s.input ∧ t.resets = s.resets ∧
    (t.posX ≠ s.posX → i = .mvleft ∨ i = .mvright ∨ i = .cmdLeft ∨ i = .cmdRight ∨ i = .tick ∧ s.mode = 1) ∧
    (t.posY ≠ s.posY → i = .mvup ∨ i = .mvdown ∨ i = .cmdUp ∨ i = .cmdDown ∨ i = .tick ∧ s.mode = 1) ∧
    (t.prevX ≠ s.prevX ∨ t.prevY ≠ s.prevY → i = .render ∧ s.posChanged = true) ∧
    (t.dir ≠ s.dir ∨ t.stepCount ≠ s.stepCount → i = .tick ∧ s.mode = 1) ∧
    (t.mode ≠ s.mode → (∃ m, i = .setmode m) ∨ (i ∈ [.cmdUp, .cmdDown, .cmdLeft, .cmdRight] ∧ t.mode = 0) ∨
      (i = .cmdAuto ∧ t.mode = 1)) ∧
    (t.buf ≠ s.buf → (∃ x y on, i = .setpx x y on) ∨ (∃ v, i = .fill v) ∨ (∃ x y d, i = .drawsq x y d) ∨
      (∃ x y d, i = .erasesq x y d) ∨ (∃ x y, i = .drawx x y) ∨ (∃ x y c, i = .drawch x y c) ∨
      (∃ x y cs, i = .drawstr x y cs) ∨ (i = .render ∧ s.posChanged = true)) ∧
    (t.out = s.out ∨
      (((∃ x y, i = .getpx x y) ∨ ∃ r, i = .rdreg r) ∧ ∃ v, t.out = s.out ++ [.rsp v]) ∨
      ((i = .present ∨ i = .render ∧ s.posChanged = true) ∧ ∃ f, t.out = s.out ++ [.frame f]))

/-- R26: a step that enters Automatic ran SETMODE 1 or CMD auto; a step that leaves it ran SETMODE 0 or a directional CMD,
or was a reset, or a reset cut the command short. -/
def Obligations.ModeChangesOnlyByCommand : Prop :=
  ∀ s t : State, step s = .next t → t.mode ≠ s.mode →
    (∃ i rest, fetch s.pending s.input = .command i rest ∧
      (t.mode = 1 → i = .setmode true ∨ i = .cmdAuto) ∧
      (t.mode = 0 → i ∈ [.setmode false, .cmdUp, .cmdLeft, .cmdRight, .cmdDown])) ∨
    ∃ rest, (fetch s.pending s.input = .reset rest ∨ ∃ i taken, fetch s.pending s.input = .cutCommand i taken rest) ∧
      t.mode = Config.resetParams.initMode

/-- The framebuffer never influences the robot unit (the "Read by" lists of R21 to R26 and R34): two states with the same
robot registers and the same port, whatever their buffers, outputs and reset counts, step to states with the same robot
registers and the same port. -/
def Obligations.BufferNeverInfluencesRobot : Prop :=
  ∀ s₁ s₂ : State, SameRobot s₁ s₂ → SamePort s₁ s₂ →
    ∃ t₁ t₂, step s₁ = .next t₁ ∧ step s₂ = .next t₂ ∧ SameRobot t₁ t₂ ∧ SamePort t₁ t₂

/-- The robot unit influences the picture only through RENDER (the "Read by" lists of R21 to R26, and the pseudocode of the
drawing commands): any other command takes two states with the same pixels, whatever their registers, to states with the
same pixels. -/
def Obligations.RobotReachesPictureOnlyByRender : Prop :=
  ∀ (i : Instr) (s₁ s₂ : State), i ≠ .render → SamePixels s₁ s₂ →
    ∃ t₁ t₂, exec i s₁ = .next t₁ ∧ exec i s₂ = .next t₂ ∧ SamePixels t₁ t₂
end

