-- ==== Sys2Proof/Laws/State.lean ====
section
/-! SUPPORT. One lemma per field per update of State, each true by unfolding the update once. -/

namespace Sys2Proof.Machine

@[simp] theorem State.setPosX_posX (s : State) (v : Byte) : (s.setPosX v).posX = v := rfl
@[simp] theorem State.setPosX_posY (s : State) (v : Byte) : (s.setPosX v).posY = s.posY := rfl
@[simp] theorem State.setPosX_prevX (s : State) (v : Byte) : (s.setPosX v).prevX = s.prevX := rfl
@[simp] theorem State.setPosX_prevY (s : State) (v : Byte) : (s.setPosX v).prevY = s.prevY := rfl
@[simp] theorem State.setPosX_dir (s : State) (v : Byte) : (s.setPosX v).dir = s.dir := rfl
@[simp] theorem State.setPosX_stepCount (s : State) (v : Byte) : (s.setPosX v).stepCount = s.stepCount := rfl
@[simp] theorem State.setPosX_mode (s : State) (v : Byte) : (s.setPosX v).mode = s.mode := rfl
@[simp] theorem State.setPosX_buf (s : State) (v : Byte) : (s.setPosX v).buf = s.buf := rfl
@[simp] theorem State.setPosX_pending (s : State) (v : Byte) : (s.setPosX v).pending = s.pending := rfl
@[simp] theorem State.setPosX_resets (s : State) (v : Byte) : (s.setPosX v).resets = s.resets := rfl
@[simp] theorem State.setPosX_input (s : State) (v : Byte) : (s.setPosX v).input = s.input := rfl
@[simp] theorem State.setPosX_out (s : State) (v : Byte) : (s.setPosX v).out = s.out := rfl

@[simp] theorem State.setPosY_posX (s : State) (v : Byte) : (s.setPosY v).posX = s.posX := rfl
@[simp] theorem State.setPosY_posY (s : State) (v : Byte) : (s.setPosY v).posY = v := rfl
@[simp] theorem State.setPosY_prevX (s : State) (v : Byte) : (s.setPosY v).prevX = s.prevX := rfl
@[simp] theorem State.setPosY_prevY (s : State) (v : Byte) : (s.setPosY v).prevY = s.prevY := rfl
@[simp] theorem State.setPosY_dir (s : State) (v : Byte) : (s.setPosY v).dir = s.dir := rfl
@[simp] theorem State.setPosY_stepCount (s : State) (v : Byte) : (s.setPosY v).stepCount = s.stepCount := rfl
@[simp] theorem State.setPosY_mode (s : State) (v : Byte) : (s.setPosY v).mode = s.mode := rfl
@[simp] theorem State.setPosY_buf (s : State) (v : Byte) : (s.setPosY v).buf = s.buf := rfl
@[simp] theorem State.setPosY_pending (s : State) (v : Byte) : (s.setPosY v).pending = s.pending := rfl
@[simp] theorem State.setPosY_resets (s : State) (v : Byte) : (s.setPosY v).resets = s.resets := rfl
@[simp] theorem State.setPosY_input (s : State) (v : Byte) : (s.setPosY v).input = s.input := rfl
@[simp] theorem State.setPosY_out (s : State) (v : Byte) : (s.setPosY v).out = s.out := rfl

@[simp] theorem State.setPrev_posX (s : State) (x y : Byte) : (s.setPrev x y).posX = s.posX := rfl
@[simp] theorem State.setPrev_posY (s : State) (x y : Byte) : (s.setPrev x y).posY = s.posY := rfl
@[simp] theorem State.setPrev_prevX (s : State) (x y : Byte) : (s.setPrev x y).prevX = x := rfl
@[simp] theorem State.setPrev_prevY (s : State) (x y : Byte) : (s.setPrev x y).prevY = y := rfl
@[simp] theorem State.setPrev_dir (s : State) (x y : Byte) : (s.setPrev x y).dir = s.dir := rfl
@[simp] theorem State.setPrev_stepCount (s : State) (x y : Byte) : (s.setPrev x y).stepCount = s.stepCount := rfl
@[simp] theorem State.setPrev_mode (s : State) (x y : Byte) : (s.setPrev x y).mode = s.mode := rfl
@[simp] theorem State.setPrev_buf (s : State) (x y : Byte) : (s.setPrev x y).buf = s.buf := rfl
@[simp] theorem State.setPrev_pending (s : State) (x y : Byte) : (s.setPrev x y).pending = s.pending := rfl
@[simp] theorem State.setPrev_resets (s : State) (x y : Byte) : (s.setPrev x y).resets = s.resets := rfl
@[simp] theorem State.setPrev_input (s : State) (x y : Byte) : (s.setPrev x y).input = s.input := rfl
@[simp] theorem State.setPrev_out (s : State) (x y : Byte) : (s.setPrev x y).out = s.out := rfl

@[simp] theorem State.setDir_posX (s : State) (v : Bit) : (s.setDir v).posX = s.posX := rfl
@[simp] theorem State.setDir_posY (s : State) (v : Bit) : (s.setDir v).posY = s.posY := rfl
@[simp] theorem State.setDir_prevX (s : State) (v : Bit) : (s.setDir v).prevX = s.prevX := rfl
@[simp] theorem State.setDir_prevY (s : State) (v : Bit) : (s.setDir v).prevY = s.prevY := rfl
@[simp] theorem State.setDir_dir (s : State) (v : Bit) : (s.setDir v).dir = v := rfl
@[simp] theorem State.setDir_stepCount (s : State) (v : Bit) : (s.setDir v).stepCount = s.stepCount := rfl
@[simp] theorem State.setDir_mode (s : State) (v : Bit) : (s.setDir v).mode = s.mode := rfl
@[simp] theorem State.setDir_buf (s : State) (v : Bit) : (s.setDir v).buf = s.buf := rfl
@[simp] theorem State.setDir_pending (s : State) (v : Bit) : (s.setDir v).pending = s.pending := rfl
@[simp] theorem State.setDir_resets (s : State) (v : Bit) : (s.setDir v).resets = s.resets := rfl
@[simp] theorem State.setDir_input (s : State) (v : Bit) : (s.setDir v).input = s.input := rfl
@[simp] theorem State.setDir_out (s : State) (v : Bit) : (s.setDir v).out = s.out := rfl

@[simp] theorem State.setStepCount_posX (s : State) (v : BitVec 4) : (s.setStepCount v).posX = s.posX := rfl
@[simp] theorem State.setStepCount_posY (s : State) (v : BitVec 4) : (s.setStepCount v).posY = s.posY := rfl
@[simp] theorem State.setStepCount_prevX (s : State) (v : BitVec 4) : (s.setStepCount v).prevX = s.prevX := rfl
@[simp] theorem State.setStepCount_prevY (s : State) (v : BitVec 4) : (s.setStepCount v).prevY = s.prevY := rfl
@[simp] theorem State.setStepCount_dir (s : State) (v : BitVec 4) : (s.setStepCount v).dir = s.dir := rfl
@[simp] theorem State.setStepCount_stepCount (s : State) (v : BitVec 4) : (s.setStepCount v).stepCount = v := rfl
@[simp] theorem State.setStepCount_mode (s : State) (v : BitVec 4) : (s.setStepCount v).mode = s.mode := rfl
@[simp] theorem State.setStepCount_buf (s : State) (v : BitVec 4) : (s.setStepCount v).buf = s.buf := rfl
@[simp] theorem State.setStepCount_pending (s : State) (v : BitVec 4) : (s.setStepCount v).pending = s.pending := rfl
@[simp] theorem State.setStepCount_resets (s : State) (v : BitVec 4) : (s.setStepCount v).resets = s.resets := rfl
@[simp] theorem State.setStepCount_input (s : State) (v : BitVec 4) : (s.setStepCount v).input = s.input := rfl
@[simp] theorem State.setStepCount_out (s : State) (v : BitVec 4) : (s.setStepCount v).out = s.out := rfl

@[simp] theorem State.setMode_posX (s : State) (v : Bit) : (s.setMode v).posX = s.posX := rfl
@[simp] theorem State.setMode_posY (s : State) (v : Bit) : (s.setMode v).posY = s.posY := rfl
@[simp] theorem State.setMode_prevX (s : State) (v : Bit) : (s.setMode v).prevX = s.prevX := rfl
@[simp] theorem State.setMode_prevY (s : State) (v : Bit) : (s.setMode v).prevY = s.prevY := rfl
@[simp] theorem State.setMode_dir (s : State) (v : Bit) : (s.setMode v).dir = s.dir := rfl
@[simp] theorem State.setMode_stepCount (s : State) (v : Bit) : (s.setMode v).stepCount = s.stepCount := rfl
@[simp] theorem State.setMode_mode (s : State) (v : Bit) : (s.setMode v).mode = v := rfl
@[simp] theorem State.setMode_buf (s : State) (v : Bit) : (s.setMode v).buf = s.buf := rfl
@[simp] theorem State.setMode_pending (s : State) (v : Bit) : (s.setMode v).pending = s.pending := rfl
@[simp] theorem State.setMode_resets (s : State) (v : Bit) : (s.setMode v).resets = s.resets := rfl
@[simp] theorem State.setMode_input (s : State) (v : Bit) : (s.setMode v).input = s.input := rfl
@[simp] theorem State.setMode_out (s : State) (v : Bit) : (s.setMode v).out = s.out := rfl

@[simp] theorem State.setBuf_posX (s : State) (m : Memory) : (s.setBuf m).posX = s.posX := rfl
@[simp] theorem State.setBuf_posY (s : State) (m : Memory) : (s.setBuf m).posY = s.posY := rfl
@[simp] theorem State.setBuf_prevX (s : State) (m : Memory) : (s.setBuf m).prevX = s.prevX := rfl
@[simp] theorem State.setBuf_prevY (s : State) (m : Memory) : (s.setBuf m).prevY = s.prevY := rfl
@[simp] theorem State.setBuf_dir (s : State) (m : Memory) : (s.setBuf m).dir = s.dir := rfl
@[simp] theorem State.setBuf_stepCount (s : State) (m : Memory) : (s.setBuf m).stepCount = s.stepCount := rfl
@[simp] theorem State.setBuf_mode (s : State) (m : Memory) : (s.setBuf m).mode = s.mode := rfl
@[simp] theorem State.setBuf_buf (s : State) (m : Memory) : (s.setBuf m).buf = m := rfl
@[simp] theorem State.setBuf_pending (s : State) (m : Memory) : (s.setBuf m).pending = s.pending := rfl
@[simp] theorem State.setBuf_resets (s : State) (m : Memory) : (s.setBuf m).resets = s.resets := rfl
@[simp] theorem State.setBuf_input (s : State) (m : Memory) : (s.setBuf m).input = s.input := rfl
@[simp] theorem State.setBuf_out (s : State) (m : Memory) : (s.setBuf m).out = s.out := rfl

@[simp] theorem State.setPort_posX (s : State) (p : Option PendingString) (r : List PortEvent) : (s.setPort p r).posX = s.posX := rfl
@[simp] theorem State.setPort_posY (s : State) (p : Option PendingString) (r : List PortEvent) : (s.setPort p r).posY = s.posY := rfl
@[simp] theorem State.setPort_prevX (s : State) (p : Option PendingString) (r : List PortEvent) : (s.setPort p r).prevX = s.prevX := rfl
@[simp] theorem State.setPort_prevY (s : State) (p : Option PendingString) (r : List PortEvent) : (s.setPort p r).prevY = s.prevY := rfl
@[simp] theorem State.setPort_dir (s : State) (p : Option PendingString) (r : List PortEvent) : (s.setPort p r).dir = s.dir := rfl
@[simp] theorem State.setPort_stepCount (s : State) (p : Option PendingString) (r : List PortEvent) : (s.setPort p r).stepCount = s.stepCount := rfl
@[simp] theorem State.setPort_mode (s : State) (p : Option PendingString) (r : List PortEvent) : (s.setPort p r).mode = s.mode := rfl
@[simp] theorem State.setPort_buf (s : State) (p : Option PendingString) (r : List PortEvent) : (s.setPort p r).buf = s.buf := rfl
@[simp] theorem State.setPort_pending (s : State) (p : Option PendingString) (r : List PortEvent) : (s.setPort p r).pending = p := rfl
@[simp] theorem State.setPort_resets (s : State) (p : Option PendingString) (r : List PortEvent) : (s.setPort p r).resets = s.resets := rfl
@[simp] theorem State.setPort_input (s : State) (p : Option PendingString) (r : List PortEvent) : (s.setPort p r).input = r := rfl
@[simp] theorem State.setPort_out (s : State) (p : Option PendingString) (r : List PortEvent) : (s.setPort p r).out = s.out := rfl

@[simp] theorem State.emit_posX (s : State) (o : Output) : (s.emit o).posX = s.posX := rfl
@[simp] theorem State.emit_posY (s : State) (o : Output) : (s.emit o).posY = s.posY := rfl
@[simp] theorem State.emit_prevX (s : State) (o : Output) : (s.emit o).prevX = s.prevX := rfl
@[simp] theorem State.emit_prevY (s : State) (o : Output) : (s.emit o).prevY = s.prevY := rfl
@[simp] theorem State.emit_dir (s : State) (o : Output) : (s.emit o).dir = s.dir := rfl
@[simp] theorem State.emit_stepCount (s : State) (o : Output) : (s.emit o).stepCount = s.stepCount := rfl
@[simp] theorem State.emit_mode (s : State) (o : Output) : (s.emit o).mode = s.mode := rfl
@[simp] theorem State.emit_buf (s : State) (o : Output) : (s.emit o).buf = s.buf := rfl
@[simp] theorem State.emit_pending (s : State) (o : Output) : (s.emit o).pending = s.pending := rfl
@[simp] theorem State.emit_resets (s : State) (o : Output) : (s.emit o).resets = s.resets := rfl
@[simp] theorem State.emit_input (s : State) (o : Output) : (s.emit o).input = s.input := rfl
@[simp] theorem State.emit_out (s : State) (o : Output) : (s.emit o).out = s.out ++ [o] := rfl

/-! Updates of one field twice, and of a field by its own value. -/

@[simp] theorem State.setBuf_setBuf (s : State) (m n : Memory) : (s.setBuf m).setBuf n = s.setBuf n := rfl
@[simp] theorem State.setBuf_self (s : State) : s.setBuf s.buf = s := rfl
@[simp] theorem State.setPort_self (s : State) : s.setPort s.pending s.input = s := rfl
@[simp] theorem State.setPort_setPort (s : State) (p q : Option PendingString) (r t : List PortEvent) :
    (s.setPort p r).setPort q t = s.setPort q t := rfl
theorem State.setBuf_setPort (s : State) (m : Memory) (p : Option PendingString) (r : List PortEvent) :
    (s.setPort p r).setBuf m = (s.setBuf m).setPort p r := rfl
theorem State.emit_setPort (s : State) (o : Output) (p : Option PendingString) (r : List PortEvent) :
    (s.setPort p r).emit o = (s.emit o).setPort p r := rfl

end Sys2Proof.Machine
end

