-- ==== Sys2Proof/Laws/Decode.lean ====
section
/-! SUPPORT. The fields of an encoded word, the payload of an encoded string, and what the stream decoder answers. -/

namespace Sys2Proof

/-! ### Fields of a header word (R80) -/

@[simp] theorem opField_headerWord (op a b c : Byte) : opField (headerWord op a b c) = op := by
  apply BitVec.eq_of_getLsbD_eq
  intro i hi
  simp only [opField, headerWord, BitVec.getLsbD_extractLsb', BitVec.getLsbD_append]
  rw [if_neg (by omega), if_neg (by omega), if_neg (by omega)]
  simp only [hi, decide_true, Bool.true_and]
  congr 1
  omega

@[simp] theorem xField_headerWord (op a b c : Byte) : xField (headerWord op a b c) = a := by
  apply BitVec.eq_of_getLsbD_eq
  intro i hi
  simp only [xField, headerWord, BitVec.getLsbD_extractLsb', BitVec.getLsbD_append]
  rw [if_neg (by omega), if_neg (by omega), if_pos (by omega)]
  simp only [hi, decide_true, Bool.true_and]
  congr 1
  omega

@[simp] theorem yField_headerWord (op a b c : Byte) : yField (headerWord op a b c) = b := by
  apply BitVec.eq_of_getLsbD_eq
  intro i hi
  simp only [yField, headerWord, BitVec.getLsbD_extractLsb', BitVec.getLsbD_append]
  rw [if_neg (by omega), if_pos (by omega)]
  simp only [hi, decide_true, Bool.true_and]
  congr 1
  omega

@[simp] theorem cField_headerWord (op a b c : Byte) : cField (headerWord op a b c) = c := by
  apply BitVec.eq_of_getLsbD_eq
  intro i hi
  simp only [cField, headerWord, BitVec.getLsbD_extractLsb', BitVec.getLsbD_append]
  rw [if_pos (by omega)]
  simp [hi]

@[simp] theorem flagField_headerWord (op a b c : Byte) : flagField (headerWord op a b c) = c.getLsbD 0 := by
  simp only [flagField, headerWord, BitVec.getLsbD_append]
  rw [if_pos (by omega)]

@[simp] theorem flagByte_bit (f : Bool) : (flagByte f).getLsbD 0 = f := by
  cases f <;> rfl

/-! ### The payload of a string (R87, R88) -/

@[simp] theorem unpackChars_length (n : Nat) (payload : List Word) : (unpackChars n payload).length = n := by
  simp [unpackChars]

@[simp] theorem packChars_length (chars : List Byte) : (packChars chars).length = (chars.length + 3) / 4 := by
  simp [packChars]

/-- Byte `r` of a packed word is character `4j + r` (R88). -/
theorem packWord_byte (chars : List Byte) (j : Nat) {r : Nat} (hr : r < 4) :
    (packWord chars j).extractLsb' (8 * r) 8 = (chars[4 * j + r]?).getD 0 := by
  have h0 := cField_headerWord (chars[4 * j + 3]?.getD 0) (chars[4 * j + 2]?.getD 0) (chars[4 * j + 1]?.getD 0)
    (chars[4 * j]?.getD 0)
  have h1 := yField_headerWord (chars[4 * j + 3]?.getD 0) (chars[4 * j + 2]?.getD 0) (chars[4 * j + 1]?.getD 0)
    (chars[4 * j]?.getD 0)
  have h2 := xField_headerWord (chars[4 * j + 3]?.getD 0) (chars[4 * j + 2]?.getD 0) (chars[4 * j + 1]?.getD 0)
    (chars[4 * j]?.getD 0)
  have h3 := opField_headerWord (chars[4 * j + 3]?.getD 0) (chars[4 * j + 2]?.getD 0) (chars[4 * j + 1]?.getD 0)
    (chars[4 * j]?.getD 0)
  interval_cases r
  exacts [h0, h1, h2, h3]

/-- Character `k` of a packed string. -/
theorem payloadChar_packChars (chars : List Byte) {k : Nat} (hk : k < chars.length) :
    payloadChar (packChars chars) k = chars[k] := by
  have hj : k / 4 < (chars.length + 3) / 4 := by omega
  have e : (packChars chars)[k / 4]? = some (packWord chars (k / 4)) := by
    simp [packChars, hj]
  rw [payloadChar, e, Option.getD_some, packWord_byte chars _ (Nat.mod_lt k (by decide)), Nat.div_add_mod]
  simp [hk]

/-- Unpacking a packed string gives it back (R88). -/
theorem unpackChars_packChars (chars : List Byte) : unpackChars chars.length (packChars chars) = chars := by
  apply List.ext_getElem (by simp)
  intro k h1 h2
  simp only [unpackChars, List.getElem_map, List.getElem_range]
  exact payloadChar_packChars chars h2

/-! ### The stream decoder (R89) -/

theorem PendingString.need_push (p : PendingString) (w : Word) : (p.push w).need = p.need - 1 := by
  simp only [need, push, List.length_append, List.length_cons, List.length_nil]
  omega

/-- Payload words short of the number owed leave the DRAWSTR pending. -/
theorem gatherPayload_short (ws : List Word) (p : PendingString) (h : ws.length < p.need) (rest : List PortEvent) :
    gatherPayload (ws.map .word ++ rest) p = gatherPayload rest { p with payload := p.payload ++ ws } := by
  induction ws generalizing p with
  | nil => simp
  | cons w ws ih =>
    have hn := p.need_push w
    simp only [List.length_cons] at h
    simp only [List.map_cons, List.cons_append, gatherPayload]
    rw [if_neg (by omega), ih _ (by omega)]
    simp [PendingString.push]

/-- As many payload words as are owed complete the DRAWSTR, whatever follows them. -/
theorem gatherPayload_complete (ws : List Word) (p : PendingString) (hn : 0 < p.need) (h : ws.length = p.need)
    (rest : List PortEvent) :
    gatherPayload (ws.map .word ++ rest) p =
      .command { p with payload := p.payload ++ ws : PendingString }.command rest := by
  induction ws generalizing p with
  | nil => simp at h; omega
  | cons w ws ih =>
    have hp := p.need_push w
    simp only [List.length_cons] at h
    simp only [List.map_cons, List.cons_append, gatherPayload]
    by_cases h0 : (p.push w).need = 0
    · have : ws = [] := List.length_eq_zero_iff.1 (by omega)
      subst this
      rw [if_pos h0]
      simp [PendingString.push]
    · rw [if_neg h0, ih _ (by omega) (by omega)]
      simp [PendingString.push]

/-- Payload words with a reset during the last of them (R190): the DRAWSTR is cut short if that word completes it, else
discarded. -/
theorem gatherPayload_cut (ws : List Word) (w : Word) (p : PendingString) (h : ws.length < p.need) (taken : Nat)
    (rest : List PortEvent) :
    gatherPayload (ws.map .word ++ .cutWord w taken :: rest) p =
      if ws.length + 1 = p.need then
        .cutCommand { p with payload := p.payload ++ (ws ++ [w]) : PendingString }.command taken rest
      else .reset rest := by
  rw [gatherPayload_short ws p h]
  simp only [gatherPayload, PendingString.need_push]
  have : ({ p with payload := p.payload ++ ws : PendingString }.need - 1 = 0) ↔ ws.length + 1 = p.need := by
    simp only [PendingString.need, List.length_append] at *
    omega
  simp only [this, PendingString.push, List.append_assoc]

end Sys2Proof
end

