-- ==== Sys2Proof/Laws/Memory.lean ====
section
/-! SUPPORT. The buffer as data: read after write, and that every memory operation keeps the canonical form. -/

namespace Sys2Proof.Machine

@[simp] theorem Config.bufSize_eq : Config.bufSize = 1024 := rfl
@[simp] theorem Config.width_eq : Config.width = 128 := rfl
@[simp] theorem Config.height_eq : Config.height = 64 := rfl
@[simp] theorem Config.pages_eq : Config.pages = 8 := rfl
@[simp] theorem Config.cell_eq : Config.cell = 5 := rfl
@[simp] theorem Config.cross_eq : Config.cross = 8 := rfl
@[simp] theorem Config.robotSide_eq : Config.robotSide = 8 := rfl
@[simp] theorem Config.dustSide_eq : Config.dustSide = 4 := rfl

theorem Memory.find_insert_same (i : Nat) (v : Byte) (m : Memory) :
    Memory.find i (Memory.insert i v m) = some v := by
  induction m with
  | nil => simp [Memory.insert, Memory.find]
  | cons c rest ih =>
    obtain ⟨a, b⟩ := c
    simp only [Memory.insert]
    split
    · simp [Memory.find]
    · split
      · simp [Memory.find]
      · simp [Memory.find, *]

theorem Memory.find_insert_other {i j : Nat} (h : j ≠ i) (v : Byte) (m : Memory) :
    Memory.find j (Memory.insert i v m) = Memory.find j m := by
  induction m with
  | nil => simp [Memory.insert, Memory.find, h]
  | cons c rest ih =>
    obtain ⟨a, b⟩ := c
    simp only [Memory.insert]
    split
    · simp [Memory.find, h]
    · split
      · subst_vars; simp [Memory.find, h]
      · simp [Memory.find, ih]

theorem Memory.wfFrom_cons (lo a : Nat) (v : Byte) (rest : Memory) :
    Memory.wfFrom lo ((a, v) :: rest) = true ↔ lo ≤ a ∧ a < 1024 ∧ Memory.wfFrom (a + 1) rest = true := by
  simp [Memory.wfFrom, and_assoc]

theorem Memory.wfFrom_insert {lo i : Nat} (hlo : lo ≤ i) (hi : i < 1024) (v : Byte) {m : Memory}
    (h : Memory.wfFrom lo m = true) : Memory.wfFrom lo (Memory.insert i v m) = true := by
  induction m generalizing lo with
  | nil => exact (Memory.wfFrom_cons lo i v []).2 ⟨hlo, hi, rfl⟩
  | cons c rest ih =>
    obtain ⟨a, b⟩ := c
    obtain ⟨h1, h2, h3⟩ := (Memory.wfFrom_cons lo a b rest).1 h
    simp only [Memory.insert]
    split
    · exact (Memory.wfFrom_cons ..).2 ⟨hlo, hi, (Memory.wfFrom_cons ..).2 ⟨by omega, h2, h3⟩⟩
    · split
      · subst_vars
        exact (Memory.wfFrom_cons ..).2 ⟨h1, h2, h3⟩
      · exact (Memory.wfFrom_cons ..).2 ⟨h1, h2, ih (by omega) h3⟩

/-- A write keeps the canonical form. -/
theorem Memory.wf_write {m : Memory} (h : Memory.wf m = true) (i : Nat) (v : Byte) :
    Memory.wf (Memory.write m i v) = true := by
  unfold Memory.write
  split
  · exact Memory.wfFrom_insert (Nat.zero_le i) (by assumption) v h
  · exact h

/-- Reading the byte just written. -/
theorem Memory.find_write_same {m : Memory} {i : Nat} (hi : i < 1024) (v : Byte) :
    Memory.find i (Memory.write m i v) = some v := by
  simp [Memory.write, hi, Memory.find_insert_same]

/-- A write leaves every other byte alone. -/
theorem Memory.find_write_other {m : Memory} {i j : Nat} (h : j ≠ i) (v : Byte) :
    Memory.find j (Memory.write m i v) = Memory.find j m := by
  unfold Memory.write
  split
  · exact Memory.find_insert_other h v m
  · rfl

theorem Memory.find_map_pair (v : Byte) (i : Nat) (l : List Nat) :
    Memory.find i (l.map fun j => (j, v)) = if i ∈ l then some v else none := by
  induction l with
  | nil => simp [Memory.find]
  | cons a l ih =>
    simp only [List.map_cons, Memory.find, ih, List.mem_cons]
    split <;> simp_all

/-- What a filled buffer holds. -/
theorem Memory.find_filled (v : Byte) (i : Nat) :
    Memory.find i (Memory.filled v) = if i < 1024 then some v else none := by
  simp [Memory.filled, Memory.find_map_pair]

theorem Memory.wfFrom_map_range' (v : Byte) (lo n : Nat) (h : lo + n ≤ 1024) :
    Memory.wfFrom lo ((List.range' lo n).map fun i => (i, v)) = true := by
  induction n generalizing lo with
  | zero => rfl
  | succ n ih =>
    rw [List.range'_succ]
    exact (Memory.wfFrom_cons ..).2 ⟨Nat.le_refl lo, by omega, ih (lo + 1) (by omega)⟩

/-- A filled buffer is in the canonical form. -/
theorem Memory.wf_filled (v : Byte) : Memory.wf (Memory.filled v) = true := by
  have h := Memory.wfFrom_map_range' v 0 1024 (by omega)
  rwa [← List.range_eq_range'] at h

/-- The empty memory, which a reset leaves, is in the canonical form. -/
theorem Memory.wf_nil : Memory.wf [] = true := rfl

/-! ### Bytes of a state's buffer -/

theorem State.bufByte_setBufByte_same (s : State) {i : Nat} (hi : i < 1024) (v : Byte) :
    (s.setBufByte i v).bufByte i = v := by
  simp [State.bufByte, State.setBufByte, Memory.find_write_same hi]

theorem State.bufByte_setBufByte_other (s : State) {i j : Nat} (h : j ≠ i) (v : Byte) :
    (s.setBufByte i v).bufByte j = s.bufByte j := by
  simp [State.bufByte, State.setBufByte, Memory.find_write_other h]

/-- A byte depends on nothing but the buffer and the number of resets. -/
theorem State.bufByte_congr {s t : State} (hb : s.buf = t.buf) (hr : s.resets = t.resets) (i : Nat) :
    s.bufByte i = t.bufByte i := by
  simp [State.bufByte, hb, hr]

@[simp] theorem State.bufByte_emit (s : State) (o : Output) (i : Nat) : (s.emit o).bufByte i = s.bufByte i := rfl
@[simp] theorem State.bufByte_setPrev (s : State) (x y : Byte) (i : Nat) :
    (s.setPrev x y).bufByte i = s.bufByte i := rfl
@[simp] theorem State.bufByte_setPort (s : State) (p : Option PendingString) (r : List PortEvent) (i : Nat) :
    (s.setPort p r).bufByte i = s.bufByte i := rfl

end Sys2Proof.Machine
end

