-- ==== Sys2Proof/Laws/Pixel.lean ====
section
/-! SUPPORT. The pixel address encoder (20_memory.md R50, R51, R56) and the two access primitives (R53, R54): what a pixel
write does to every byte and to every pixel. -/

namespace Sys2Proof.Machine

theorem inRange_iff (x y : Nat) : inRange x y = true ↔ x < 128 ∧ y < 64 := by
  simp [inRange]

theorem pixelBit_lt (y : Nat) : pixelBit y < 8 := Nat.mod_lt y (by decide)

/-- No in-range pixel lies outside the buffer (R55). -/
theorem pixelIndex_lt {x y : Nat} (h : inRange x y = true) : pixelIndex x y < 1024 := by
  rw [inRange_iff] at h
  simp only [pixelIndex, Config.pages_eq]
  omega

/-- Two in-range pixels of one byte and one bit are one pixel (R56). -/
theorem pixel_inj {a b x y : Nat} (h : inRange a b = true) (h' : inRange x y = true)
    (hi : pixelIndex a b = pixelIndex x y) (hb : pixelBit b = pixelBit y) : a = x ∧ b = y := by
  rw [inRange_iff] at h h'
  simp only [pixelIndex, pixelBit, Config.pages_eq] at hi hb
  omega

/-- The inverse of the encoder (R56). -/
theorem pixelIndex_inverse {i k : Nat} (hi : i < 1024) (hk : k < 8) :
    inRange (i / 8) (8 * (i % 8) + k) = true ∧ pixelIndex (i / 8) (8 * (i % 8) + k) = i ∧
      pixelBit (8 * (i % 8) + k) = k := by
  rw [inRange_iff]
  simp only [pixelIndex, pixelBit, Config.pages_eq]
  omega

theorem getLsbD_maskedByte (old : Byte) (y : Nat) (on : Bool) {k : Nat} (hk : k < 8) :
    (maskedByte old (pixelMask y) on).getLsbD k = if k = pixelBit y then on else old.getLsbD k := by
  have hr := pixelBit_lt y
  unfold maskedByte pixelMask
  generalize pixelBit y = r at hr
  interval_cases r <;> interval_cases k <;> cases on <;> simp

/-- A byte is its eight bits. -/
theorem byte_eq_of_bits {v w : Byte} (h : ∀ k < 8, v.getLsbD k = w.getLsbD k) : v = w :=
  BitVec.eq_of_getLsbD_eq fun k hk => h k hk

/-! ### The write primitive -/

/-- A pixel write changes nothing but the buffer (R53). -/
theorem setPixel_eq_setBuf (x y : Nat) (on : Bool) (s : State) :
    setPixel x y on s = s.setBuf (setPixel x y on s).buf := by
  unfold setPixel
  split <;> rfl

/-- A pixel write keeps the canonical form of the buffer. -/
theorem setPixel_wf (x y : Nat) (on : Bool) {s : State} (h : Memory.wf s.buf = true) :
    Memory.wf (setPixel x y on s).buf = true := by
  unfold setPixel
  split
  · exact Memory.wf_write h _ _
  · exact h

/-- An out-of-range pixel write is dropped (R55). -/
theorem setPixel_out_of_range {x y : Nat} (h : inRange x y = false) (on : Bool) (s : State) :
    setPixel x y on s = s := by
  simp [setPixel, h]

/-- The byte that holds the pixel, after the write (R53). -/
theorem bufByte_setPixel_same {x y : Nat} (h : inRange x y = true) (on : Bool) (s : State) :
    (setPixel x y on s).bufByte (pixelIndex x y) = maskedByte (s.bufByte (pixelIndex x y)) (pixelMask y) on := by
  simp only [setPixel, h, if_true]
  exact State.bufByte_setBufByte_same s (pixelIndex_lt h) _

/-- Every other byte keeps its value (R53). -/
theorem bufByte_setPixel_other {x y i : Nat} (h : inRange x y = true → i ≠ pixelIndex x y) (on : Bool) (s : State) :
    (setPixel x y on s).bufByte i = s.bufByte i := by
  unfold setPixel
  split
  · exact State.bufByte_setBufByte_other s (h (by assumption)) _
  · rfl

/-! ### The read primitive -/

theorem getPixel_in_range {x y : Nat} (h : inRange x y = true) (s : State) :
    getPixel x y s = (s.bufByte (pixelIndex x y)).getLsbD (pixelBit y) := by
  simp [getPixel, h]

/-- An out-of-range read is 0 (R54). -/
theorem getPixel_out_of_range {x y : Nat} (h : inRange x y = false) (s : State) : getPixel x y s = false := by
  simp [getPixel, h]

/-- Every pixel after a pixel write: the one written, and no other, has the value written (R53, R54, R56). -/
theorem getPixel_setPixel (a b x y : Nat) (on : Bool) (s : State) :
    getPixel a b (setPixel x y on s) =
      if a = x ∧ b = y ∧ inRange a b = true then on else getPixel a b s := by
  cases hab : inRange a b with
  | false => simp [getPixel_out_of_range hab]
  | true =>
    rw [getPixel_in_range hab, getPixel_in_range hab]
    by_cases hxy : inRange x y = true ∧ pixelIndex a b = pixelIndex x y
    · obtain ⟨hr, hi⟩ := hxy
      rw [hi, bufByte_setPixel_same hr, getLsbD_maskedByte _ _ _ (pixelBit_lt b)]
      by_cases hb : pixelBit b = pixelBit y
      · simp [pixel_inj hab hr hi hb]
      · have : ¬(a = x ∧ b = y) := fun h => hb (by rw [h.2])
        simp only [hb, if_false, and_true]
        split
        · exact absurd (by assumption) this
        · rfl
    · rw [bufByte_setPixel_other (fun hr hi => hxy ⟨hr, hi⟩)]
      rw [if_neg]
      rintro ⟨rfl, rfl, -⟩
      exact hxy ⟨hab, rfl⟩

/-- Bits of a byte of the buffer are pixels (R34, R56). -/
theorem bufByte_bit {i k : Nat} (hi : i < 1024) (hk : k < 8) (s : State) :
    (s.bufByte i).getLsbD k = getPixel (i / 8) (8 * (i % 8) + k) s := by
  obtain ⟨hr, hx, hb⟩ := pixelIndex_inverse hi hk
  rw [getPixel_in_range hr, hx, hb]

/-- States that agree on every pixel agree on every byte of the buffer. -/
theorem bufByte_eq_of_pixels {s t : State} (h : ∀ a b, getPixel a b s = getPixel a b t) {i : Nat} (hi : i < 1024) :
    s.bufByte i = t.bufByte i :=
  byte_eq_of_bits fun k hk => by rw [bufByte_bit hi hk, bufByte_bit hi hk, h]

theorem getPixel_congr {s t : State} (hb : s.buf = t.buf) (hr : s.resets = t.resets) (a b : Nat) :
    getPixel a b s = getPixel a b t := by
  simp [getPixel, State.bufByte_congr hb hr]

end Sys2Proof.Machine
end

