-- ==== Sys2Proof/Laws/Paint.lean ====
section
/-! SUPPORT. What every drawing operation does, said once: it changes nothing but the buffer, keeps its canonical form, gives
each pixel it covers a value, and leaves every other pixel and every byte with no covered pixel alone. -/

namespace Sys2Proof.Machine

/-- `f` gives the pixel `(a, b)` the value `P a b` where that is some, and touches nothing else. -/
structure Paints (f : State → State) (P : Nat → Nat → Option Bool) : Prop where
  /-- only the buffer changes -/
  frame : ∀ s, f s = s.setBuf (f s).buf
  /-- the buffer keeps its canonical form -/
  wf : ∀ s, Memory.wf s.buf = true → Memory.wf (f s).buf = true
  /-- every pixel afterwards -/
  pixel : ∀ s a b, inRange a b = true → getPixel a b (f s) = (P a b).getD (getPixel a b s)
  /-- a byte none of whose pixels is covered keeps its value -/
  bytes : ∀ s i, (∀ a b, inRange a b = true → P a b ≠ none → pixelIndex a b ≠ i) → (f s).bufByte i = s.bufByte i

theorem Paints.congr {f : State → State} {P Q : Nat → Nat → Option Bool} (h : Paints f P) (hPQ : ∀ a b, P a b = Q a b) :
    Paints f Q := by
  have : P = Q := funext fun a => funext (hPQ a)
  exact this ▸ h

/-- A command that paints answers a next state that differs in the buffer only. -/
theorem Paints.answers {f : State → State} {P : Nat → Nat → Option Bool} (h : Paints f P) (s : State) :
    (.next (f s) : Host.Outcome State Fault Refusal) = .next (s.setBuf (f s).buf) := by
  rw [← h.frame s]

/-- Doing nothing paints nothing. -/
theorem paints_id : Paints (fun s => s) fun _ _ => none :=
  { frame := fun _ => rfl
    wf := fun _ h => h
    pixel := fun _ _ _ _ => rfl
    bytes := fun _ _ _ => rfl }

/-- Painting `Q` and then `P`: where both paint, the later one wins. -/
theorem Paints.comp {f g : State → State} {P Q : Nat → Nat → Option Bool} (hf : Paints f P) (hg : Paints g Q) :
    Paints (fun s => f (g s)) fun a b => (P a b).or (Q a b) :=
  { frame := fun s => by
      show f (g s) = s.setBuf (f (g s)).buf
      conv_lhs => rw [hf.frame (g s), hg.frame s]
      simp only [State.setBuf_setBuf]
      rw [← hg.frame s]
    wf := fun s h => hf.wf _ (hg.wf s h)
    pixel := fun s a b h => by
      show getPixel a b (f (g s)) = _
      rw [hf.pixel _ a b h, hg.pixel s a b h]
      cases P a b <;> simp
    bytes := fun s i h => by
      show (f (g s)).bufByte i = _
      rw [hf.bytes, hg.bytes]
      · exact fun a b hr hq => h a b hr (by cases hp : P a b <;> simp [hq])
      · exact fun a b hr hp => h a b hr (by simp [Option.or_eq_none_iff, hp]) }

/-- One pixel write (R53). -/
theorem paints_setPixel (x y : Nat) (on : Bool) :
    Paints (setPixel x y on) fun a b => if a = x ∧ b = y then some on else none :=
  { frame := setPixel_eq_setBuf x y on
    wf := fun _ => setPixel_wf x y on
    pixel := fun s a b h => by
      rw [getPixel_setPixel]
      by_cases hxy : a = x ∧ b = y
      · simp [hxy, hxy.1 ▸ hxy.2 ▸ h]
      · rw [if_neg (fun h' => hxy ⟨h'.1, h'.2.1⟩), if_neg hxy]; rfl
    bytes := fun s i h =>
      bufByte_setPixel_other (fun hr hi => h x y hr (by simp) hi.symm) on s }

/-- A loop whose turns agree on the value `V a b` each pixel is to get paints what some turn covers (R9). -/
theorem paints_forRange {V : Nat → Nat → Bool} {f : Nat → State → State} {C : Nat → Nat → Nat → Prop}
    [∀ i a b, Decidable (C i a b)] (h : ∀ i, Paints (f i) fun a b => if C i a b then some (V a b) else none) (n : Nat) :
    Paints (forRange n f) fun a b => if ∃ i < n, C i a b then some (V a b) else none := by
  induction n with
  | zero => exact paints_id.congr fun a b => by simp
  | succ n ih =>
    refine ((h n).comp ih).congr fun a b => ?_
    by_cases hn : C n a b
    · have : ∃ i < n + 1, C i a b := ⟨n, Nat.lt_succ_self n, hn⟩
      rw [if_pos hn, if_pos this, Option.some_or]
    · have : (∃ i < n + 1, C i a b) ↔ ∃ i < n, C i a b :=
        ⟨fun ⟨i, hi, hc⟩ => ⟨i, lt_of_le_of_ne (Nat.lt_succ_iff.1 hi) (fun he => hn (he ▸ hc)), hc⟩,
         fun ⟨i, hi, hc⟩ => ⟨i, Nat.lt_succ_of_lt hi, hc⟩⟩
      simp only [if_neg hn, Option.none_or, this]

/-- One pixel write of a loop, its value read off the pixel. -/
theorem paints_setPixel_of {V : Nat → Nat → Bool} {x y : Nat} {on : Bool} (h : V x y = on) :
    Paints (setPixel x y on) fun a b => if a = x ∧ b = y then some (V a b) else none :=
  (paints_setPixel x y on).congr fun a b => by
    by_cases hab : a = x ∧ b = y
    · obtain ⟨rfl, rfl⟩ := hab; simp [h]
    · simp [hab]

theorem inSquare_iff (x y side a b : Nat) :
    inSquare x y side a b = true ↔ x ≤ a ∧ a < x + side ∧ y ≤ b ∧ b < y + side := by
  simp [inSquare, and_assoc]

/-- A double loop over the offsets of a square covers exactly the square. -/
theorem exists_offsets_iff (x y side a b : Nat) :
    (∃ i < side, ∃ j < side, a = x + i ∧ b = y + j) ↔ inSquare x y side a b = true := by
  rw [inSquare_iff]
  constructor
  · rintro ⟨i, hi, j, hj, rfl, rfl⟩; omega
  · rintro ⟨h1, h2, h3, h4⟩; exact ⟨a - x, by omega, b - y, by omega, by omega, by omega⟩

/-- The square block (R120, R121). -/
theorem paints_paintSquare (x y side : Nat) (on : Bool) :
    Paints (paintSquare x y side on) fun a b => if inSquare x y side a b then some on else none :=
  (paints_forRange (V := fun _ _ => on)
    (fun _ => paints_forRange (V := fun _ _ => on) (fun _ => paints_setPixel_of rfl) side) side).congr
    fun a b => by simp only [exists_offsets_iff]

/-- The glyph cell (R132): all 25 pixels, each with its glyph bit. -/
theorem paints_drawChar (glyph : Nat → Nat → Byte) (ch : Byte) (x y : Nat) :
    Paints (drawChar glyph ch x y) fun a b =>
      if inSquare x y 5 a b then some ((glyphCol glyph ch (a - x)).getLsbD (b - y)) else none :=
  have h (i j : Nat) : Paints (setPixel (x + i) (y + j) ((glyphCol glyph ch i).getLsbD j)) fun a b =>
      if a = x + i ∧ b = y + j then some ((glyphCol glyph ch (a - x)).getLsbD (b - y)) else none :=
    paints_setPixel_of (by simp)
  (paints_forRange (fun i => paints_forRange (h i) 5) 5).congr fun a b => by simp only [exists_offsets_iff]

theorem onCross_iff (x y a b : Nat) :
    onCross x y a b = true ↔ ∃ i < 8, (a = x + i ∧ b = y + i) ∨ (a = x + (7 - i) ∧ b = y + i) := by
  simp only [onCross, Bool.and_eq_true, Bool.or_eq_true, decide_eq_true_eq, inSquare_iff]
  constructor
  · rintro ⟨h, h'⟩
    exact ⟨b - y, by omega, by omega⟩
  · rintro ⟨i, hi, h⟩
    omega

/-- The diagonal cross (R122). -/
theorem paints_paintCross (x y : Nat) :
    Paints (paintCross x y) fun a b => if onCross x y a b then some true else none :=
  (paints_forRange (V := fun _ _ => true)
    (C := fun i a b => (a = x + i ∧ b = y + i) ∨ (a = x + (7 - i) ∧ b = y + i))
    (fun i => ((paints_setPixel (x + (7 - i)) (y + i) true).comp (paints_setPixel (x + i) (y + i) true)).congr
      fun a b => by
        by_cases h1 : a = x + (7 - i) ∧ b = y + i
        · rw [if_pos h1, if_pos (Or.inr h1), Option.some_or]
        · simp only [h1, if_false, Option.none_or, or_false]) 8).congr
    fun a b => by simp only [onCross_iff]

/-- What a string paints, by the loop of R133: where cells of later characters are painted too, the later one wins. -/
def textPaint (glyph : Nat → Nat → Byte) : List Byte → Nat → Nat → Nat → Nat → Option Bool
  | [], _, _, _, _ => none
  | ch :: rest, cx, cy, a, b =>
    if wrapRow cx cy + 5 > 64 then none
    else
      (textPaint glyph rest (wrapColumn cx + 5) (wrapRow cx cy) a b).or
        (if inSquare (wrapColumn cx) (wrapRow cx cy) 5 a b then
          some ((glyphCol glyph ch (a - wrapColumn cx)).getLsbD (b - wrapRow cx cy))
        else none)

/-- The string (R133). -/
theorem paints_drawChars (glyph : Nat → Nat → Byte) (chars : List Byte) (cx cy : Nat) :
    Paints (drawChars glyph chars cx cy) (textPaint glyph chars cx cy) := by
  induction chars generalizing cx cy with
  | nil => exact paints_id
  | cons ch rest ih =>
    by_cases h : wrapRow cx cy + 5 > 64
    · have e : drawChars glyph (ch :: rest) cx cy = fun s => s := funext fun s => by simp [drawChars, h]
      rw [e]
      exact paints_id.congr fun a b => by simp [textPaint, h]
    · have e : drawChars glyph (ch :: rest) cx cy = fun s =>
          drawChars glyph rest (wrapColumn cx + 5) (wrapRow cx cy)
            (drawChar glyph ch (wrapColumn cx) (wrapRow cx cy) s) := funext fun s => by simp [drawChars, h]
      rw [e]
      exact ((ih _ _).comp (paints_drawChar glyph ch _ _)).congr fun a b => by simp [textPaint, h]

/-- FILL gives every byte the value (R112). -/
theorem bufByte_fillBuffer (value : Bool) (s : State) {i : Nat} (hi : i < 1024) :
    (fillBuffer value s).bufByte i = if value then 0xFF else 0x00 := by
  simp [fillBuffer, State.bufByte, Memory.find_filled, hi]

/-- FILL changes nothing but the buffer (R112). -/
theorem fillBuffer_eq_setBuf (value : Bool) (s : State) :
    fillBuffer value s = s.setBuf (fillBuffer value s).buf := by
  simp only [fillBuffer, State.setBuf_buf]

/-- FILL leaves the canonical form (R112). -/
theorem fillBuffer_wf (value : Bool) (s : State) : Memory.wf (fillBuffer value s).buf = true := by
  simp only [fillBuffer, State.setBuf_buf, Memory.wf_filled]

/-- FILL gives one buffer, in the canonical form, whatever was there before (R112). -/
theorem fillBuffer_const (value : Bool) : ∃ m, Memory.wf m = true ∧ ∀ s, fillBuffer value s = s.setBuf m :=
  ⟨_, Memory.wf_filled (if value then 0xFF else 0x00), fun _ => by simp only [fillBuffer]⟩

/-- The last FILL decides (R112). -/
theorem fillBuffer_fillBuffer (v v' : Bool) (s : State) : fillBuffer v' (fillBuffer v s) = fillBuffer v' s := by
  simp only [fillBuffer, State.setBuf_setBuf]

/-- FILL as pixels: every in-range pixel gets the value (R112). -/
theorem getPixel_fillBuffer (value : Bool) (s : State) {a b : Nat} (h : inRange a b = true) :
    getPixel a b (fillBuffer value s) = value := by
  rw [getPixel_in_range h, bufByte_fillBuffer value s (pixelIndex_lt h)]
  have := pixelBit_lt b
  generalize pixelBit b = k at this
  interval_cases k <;> cases value <;> rfl

end Sys2Proof.Machine
end

