-- ==== Sys2Proof/Laws/PerInstr.lean ====
section
/-! SUPPORT. Families of facts about every instruction as syntax, one lemma per constructor. -/

namespace Sys2Proof.Laws

/-- An instruction's encoding has as many words as its first word says (30_encoding.md R87). -/
def EncodeLength.Statement (i : Instr) : Prop :=
  i.wf = true → (encode i).length = commandLength ((encode i).headD 0)

theorem EncodeLength.setpx (x y : Byte) (on : Bool) : EncodeLength.Statement (.setpx x y on) :=
  fun _ => by simp [encode, commandLength]
theorem EncodeLength.getpx (x y : Byte) : EncodeLength.Statement (.getpx x y) :=
  fun _ => by simp [encode, commandLength]
theorem EncodeLength.fill (value : Bool) : EncodeLength.Statement (.fill value) :=
  fun _ => by simp [encode, commandLength]
theorem EncodeLength.drawsq (x y side : Byte) : EncodeLength.Statement (.drawsq x y side) :=
  fun _ => by simp [encode, commandLength]
theorem EncodeLength.erasesq (x y side : Byte) : EncodeLength.Statement (.erasesq x y side) :=
  fun _ => by simp [encode, commandLength]
theorem EncodeLength.drawx (x y : Byte) : EncodeLength.Statement (.drawx x y) :=
  fun _ => by simp [encode, commandLength]
theorem EncodeLength.drawch (x y ch : Byte) : EncodeLength.Statement (.drawch x y ch) :=
  fun _ => by simp [encode, commandLength]
theorem EncodeLength.drawstr (x y : Byte) (chars : List Byte) : EncodeLength.Statement (.drawstr x y chars) := by
  intro h
  have hl : chars.length ≤ 255 := by simpa [Instr.wf, stringFits] using h
  have hm : chars.length % 256 = chars.length := Nat.mod_eq_of_lt (by omega)
  simp [encode, commandLength, payloadWords, hm]
  omega
theorem EncodeLength.present : EncodeLength.Statement .present := fun _ => by simp [encode, commandLength]
theorem EncodeLength.mvup : EncodeLength.Statement .mvup := fun _ => by simp [encode, commandLength]
theorem EncodeLength.mvdown : EncodeLength.Statement .mvdown := fun _ => by simp [encode, commandLength]
theorem EncodeLength.mvleft : EncodeLength.Statement .mvleft := fun _ => by simp [encode, commandLength]
theorem EncodeLength.mvright : EncodeLength.Statement .mvright := fun _ => by simp [encode, commandLength]
theorem EncodeLength.setmode (m : Bool) : EncodeLength.Statement (.setmode m) :=
  fun _ => by simp [encode, commandLength]
theorem EncodeLength.tick : EncodeLength.Statement .tick := fun _ => by simp [encode, commandLength]
theorem EncodeLength.render : EncodeLength.Statement .render := fun _ => by simp [encode, commandLength]
theorem EncodeLength.cmdUp : EncodeLength.Statement .cmdUp := fun _ => by simp [encode, commandLength]
theorem EncodeLength.cmdLeft : EncodeLength.Statement .cmdLeft := fun _ => by simp [encode, commandLength]
theorem EncodeLength.cmdRight : EncodeLength.Statement .cmdRight := fun _ => by simp [encode, commandLength]
theorem EncodeLength.cmdDown : EncodeLength.Statement .cmdDown := fun _ => by simp [encode, commandLength]
theorem EncodeLength.cmdAuto : EncodeLength.Statement .cmdAuto := fun _ => by simp [encode, commandLength]
theorem EncodeLength.rdreg (r : Byte) : EncodeLength.Statement (.rdreg r) :=
  fun _ => by simp [encode, commandLength]

end Sys2Proof.Laws
end

