-- ==== Sys2Proof/Laws/Reset.lean ====
section
/-! SUPPORT. Reset (70_reset_and_hazards.md R190): what a reset leaves, and what one during a command leaves on the ports. -/

namespace Sys2Proof.Machine

@[simp] theorem resetBlock_pending (rest : List PortEvent) (s : State) : (resetBlock rest s).pending = none := rfl
@[simp] theorem resetBlock_input (rest : List PortEvent) (s : State) : (resetBlock rest s).input = rest := rfl
@[simp] theorem resetBlock_out (rest : List PortEvent) (s : State) : (resetBlock rest s).out = s.out := rfl
@[simp] theorem resetBlock_mode (rest : List PortEvent) (s : State) :
    (resetBlock rest s).mode = Config.resetParams.initMode := rfl

@[simp] theorem resetExecuting_pending (taken : Nat) (rest : List PortEvent) (s t : State) :
    (resetExecuting taken rest s t).pending = none := rfl
@[simp] theorem resetExecuting_input (taken : Nat) (rest : List PortEvent) (s t : State) :
    (resetExecuting taken rest s t).input = rest := rfl
@[simp] theorem resetExecuting_mode (taken : Nat) (rest : List PortEvent) (s t : State) :
    (resetExecuting taken rest s t).mode = Config.resetParams.initMode := rfl

/-- At most one output shows of one output (R190). -/
theorem cutOutput_length (taken : Nat) (o : Output) : (cutOutput taken o).length ≤ 1 := by
  cases o <;> simp only [cutOutput] <;> split <;> simp

/-- What shows of the outputs a command appended is what shows of each. -/
theorem resetExecuting_of_append {taken : Nat} {rest : List PortEvent} {s t : State} {more : List Output}
    (h : t.out = s.out ++ more) :
    resetExecuting taken rest s t =
      State.resetWith Config.resetParams (s.resets + 1) rest (s.out ++ more.flatMap (cutOutput taken)) := by
  simp [resetExecuting, h]

/-- A reset during a command that emits nothing, or during a word that runs nothing, is a plain reset (R190). -/
theorem resetExecuting_silent {taken : Nat} {rest : List PortEvent} {s t : State} (h : t.out = s.out) :
    resetExecuting taken rest s t = resetBlock rest s := by
  rw [resetExecuting_of_append (more := []) (by simp [h])]
  simp [resetBlock]

/-- All that cutting a command short can answer (R190). -/
theorem cutShort_next {taken : Nat} {rest : List PortEvent} {s u : State} {o : Host.Outcome State Fault Refusal}
    (h : cutShort taken rest s o = .next u) : ∃ t, o = .next t ∧ u = resetExecuting taken rest s t := by
  cases o with
  | next t => cases h; exact ⟨t, rfl, rfl⟩
  | fault f => cases h
  | refused r => cases h

end Sys2Proof.Machine
end

