-- ==== Sys2Proof/Laws/Robot.lean ====
section
/-! SUPPORT. What the moves and the sweep can do, said once: a move either leaves the state or changes one coordinate by 8;
a lattice point stays one. -/

namespace Sys2Proof.Machine

theorem latticeX_iff (x : Byte) :
    Config.latticeX x = true ↔ x.toNat % 8 = 0 ∧ 8 ≤ x.toNat ∧ x.toNat ≤ 112 := by
  simp [Config.latticeX, and_assoc]

theorem latticeY_iff (y : Byte) :
    Config.latticeY y = true ↔ y.toNat % 8 = 0 ∧ 8 ≤ y.toNat ∧ y.toNat ≤ 56 := by
  simp [Config.latticeY, and_assoc]

/-- All a move up can do (R140). -/
theorem moveUp_cases (s : State) :
    (s.posY < 16 ∧ moveUp s = s) ∨ (16 ≤ s.posY ∧ moveUp s = s.setPosY (s.posY - 8)) := by
  unfold moveUp
  split
  · exact .inl ⟨by assumption, rfl⟩
  · exact .inr ⟨BitVec.not_lt.1 (by assumption), rfl⟩

/-- All a move down can do (R141). -/
theorem moveDown_cases (s : State) :
    (48 < s.posY ∧ moveDown s = s) ∨ (s.posY ≤ 48 ∧ moveDown s = s.setPosY (s.posY + 8)) := by
  unfold moveDown
  split
  · exact .inl ⟨by assumption, rfl⟩
  · exact .inr ⟨BitVec.not_lt.1 (by assumption), rfl⟩

/-- All a move left can do (R142). -/
theorem moveLeft_cases (s : State) :
    (s.posX < 16 ∧ moveLeft s = s) ∨ (16 ≤ s.posX ∧ moveLeft s = s.setPosX (s.posX - 8)) := by
  unfold moveLeft
  split
  · exact .inl ⟨by assumption, rfl⟩
  · exact .inr ⟨BitVec.not_lt.1 (by assumption), rfl⟩

/-- All a move right can do (R143). -/
theorem moveRight_cases (s : State) :
    (104 < s.posX ∧ moveRight s = s) ∨ (s.posX ≤ 104 ∧ moveRight s = s.setPosX (s.posX + 8)) := by
  unfold moveRight
  split
  · exact .inl ⟨by assumption, rfl⟩
  · exact .inr ⟨BitVec.not_lt.1 (by assumption), rfl⟩

theorem latticeX_sub {x : Byte} (h : Config.latticeX x = true) (hx : 16 ≤ x) : Config.latticeX (x - 8) = true := by
  rw [latticeX_iff] at *
  bv_omega

theorem latticeX_add {x : Byte} (h : Config.latticeX x = true) (hx : x ≤ 104) : Config.latticeX (x + 8) = true := by
  rw [latticeX_iff] at *
  bv_omega

theorem latticeY_sub {y : Byte} (h : Config.latticeY y = true) (hy : 16 ≤ y) : Config.latticeY (y - 8) = true := by
  rw [latticeY_iff] at *
  bv_omega

theorem latticeY_add {y : Byte} (h : Config.latticeY y = true) (hy : y ≤ 48) : Config.latticeY (y + 8) = true := by
  rw [latticeY_iff] at *
  bv_omega

/-- All a tick can do (R145): nothing in Manual; a counted horizontal move; or a reversal with a move down. -/
theorem sweepTick_cases (s : State) :
    (s.mode ≠ 1 ∧ sweepTick s = s) ∨
    (s.mode = 1 ∧ s.stepCount < 14 ∧ s.dir = 0 ∧ sweepTick s = (moveRight s).setStepCount (s.stepCount + 1)) ∨
    (s.mode = 1 ∧ s.stepCount < 14 ∧ s.dir ≠ 0 ∧ sweepTick s = (moveLeft s).setStepCount (s.stepCount + 1)) ∨
    (s.mode = 1 ∧ 14 ≤ s.stepCount ∧ sweepTick s = moveDown ((s.setDir (1 - s.dir)).setStepCount 0)) := by
  have hr : (moveRight s).stepCount = s.stepCount := by unfold moveRight; split <;> rfl
  have hl : (moveLeft s).stepCount = s.stepCount := by unfold moveLeft; split <;> rfl
  unfold sweepTick
  by_cases hm : s.mode = 1
  · by_cases hs : s.stepCount < 14
    · by_cases hd : s.dir = 0
      · exact .inr (.inl ⟨hm, hs, hd, by simp only [hm, hs, hd, if_true, hr]⟩)
      · exact .inr (.inr (.inl ⟨hm, hs, hd, by simp only [hm, hs, hd, if_true, if_false, hl]⟩))
    · exact .inr (.inr (.inr ⟨hm, BitVec.not_lt.1 hs, by simp only [hm, hs, if_true, if_false]⟩))
  · exact .inl ⟨hm, by simp only [hm, if_false]⟩

/-- What RDREG reads is one of the eleven registers, or 0 (R33). -/
theorem readReg_unassigned {r : Byte} (h : 11 ≤ r.toNat) (s : State) : readReg r s = 0 := by
  unfold readReg
  split <;> first | rfl | (exact absurd h (by decide))

end Sys2Proof.Machine
end

