-- ==== Sys2Proof/Laws/Step.lean ====
section
/-! SUPPORT. What a step can do, said once; what the redraw of RENDER does; and that the ports are no operand of a command. -/

namespace Sys2Proof.Machine

/-- All a step can do, by what stands at the head of the port (R89, R155, R158, R181, R190). -/
theorem step_cases {s t : State} (h : step s = .next t) :
    (fetch s.pending s.input = .idle ∧ t = s) ∨
    (∃ p, fetch s.pending s.input = .waiting p ∧ t = s.setPort (some p) []) ∨
    (∃ rest, fetch s.pending s.input = .reset rest ∧ t = resetBlock rest s) ∨
    (∃ r rest, fetch s.pending s.input = .noCommand r rest ∧ t = s.setPort none rest) ∨
    (∃ i rest, fetch s.pending s.input = .command i rest ∧ exec i (s.setPort none rest) = .next t) ∨
    (∃ i taken rest u, fetch s.pending s.input = .cutCommand i taken rest ∧ exec i (s.setPort none rest) = .next u ∧
      t = resetExecuting taken rest s u) := by
  unfold step at h
  split at h
  · next hf => exact .inl ⟨hf, by cases h; rfl⟩
  · next p hf => exact .inr (.inl ⟨p, hf, by cases h; rfl⟩)
  · next rest hf => exact .inr (.inr (.inl ⟨rest, hf, by cases h; rfl⟩))
  · next r rest hf =>
    refine .inr (.inr (.inr (.inl ⟨r, rest, hf, ?_⟩)))
    cases r <;> · simp only [execNoCommand] at h; cases h; rfl
  · next i rest hf => exact .inr (.inr (.inr (.inr (.inl ⟨i, rest, hf, h⟩))))
  · next i taken rest hf =>
    obtain ⟨u, hu, ht⟩ := cutShort_next h
    exact .inr (.inr (.inr (.inr (.inr ⟨i, taken, rest, u, hf, hu, ht⟩))))

/-- A DRAWSTR left pending still owes a payload word (R89). -/
theorem gatherPayload_waiting {input : List PortEvent} {p q : PendingString} (hp : 0 < p.need)
    (h : gatherPayload input p = .waiting q) : 0 < q.need := by
  induction input generalizing p with
  | nil => cases h; exact hp
  | cons e rest ih =>
    cases e with
    | reset => cases h
    | word w =>
      simp only [gatherPayload] at h
      split at h
      · cases h
      · exact ih (by omega) h
    | cutWord w taken =>
      simp only [gatherPayload] at h
      split at h <;> cases h

/-- A header that is left pending owes at least one payload word: its length is not 0 (R89). -/
theorem decodeFirst_header {w : Word} {x y len : Byte} (h : decodeFirst w = .stringHeader x y len) : len ≠ 0 := by
  unfold decodeFirst decodeCmd at h
  split at h
  all_goals first | cases h | skip
  · split at h
    · cases h
    · next hc => cases h; exact hc
  · split at h <;> cases h

theorem payloadWords_pos {len : Byte} (h : len ≠ 0) : 0 < payloadWords len := by
  unfold payloadWords
  have : len.toNat ≠ 0 := fun h0 => h (BitVec.eq_of_toNat_eq h0)
  omega

theorem fetchFirst_waiting {input : List PortEvent} {q : PendingString} (h : fetchFirst input = .waiting q) :
    0 < q.need := by
  unfold fetchFirst at h
  split at h
  · cases h
  · cases h
  · split at h
    · cases h
    · next hd =>
      exact gatherPayload_waiting (by simpa [PendingString.need] using payloadWords_pos (decodeFirst_header hd)) h
    · cases h
  · split at h <;> cases h

/-- What `fetch` leaves pending owes at least one payload word (R89). -/
theorem fetch_waiting {pending : Option PendingString} {input : List PortEvent} {q : PendingString}
    (h : fetch pending input = .waiting q) : 0 < q.need := by
  unfold fetch at h
  split at h
  · exact fetchFirst_waiting h
  · split at h
    · exact fetchFirst_waiting h
    · exact gatherPayload_waiting (by omega) h

/-- The buffer part of the redraw (R156): the old square cleared, then the new one set. -/
theorem paints_redraw (px py nx ny : Nat) :
    Paints (fun s => paintSquare nx ny 8 true (paintSquare px py 8 false s)) fun a b =>
      if inSquare nx ny 8 a b then some true else if inSquare px py 8 a b then some false else none :=
  ((paints_paintSquare nx ny 8 true).comp (paints_paintSquare px py 8 false)).congr fun a b => by
    split <;> simp

/-- The redraw (R156): the two squares painted, the position recorded, then the frame of the painted buffer emitted. -/
theorem redraw_eq (s : State) :
    redraw s = emitFrame
      ((paintSquare s.posX.toNat s.posY.toNat 8 true (paintSquare s.prevX.toNat s.prevY.toNat 8 false s)).setPrev
        s.posX s.posY) := rfl

/-- The frame port's snapshot: byte `i` of the frame is byte `i` of the buffer (R67, R113). -/
theorem currentFrame_byte (s : State) {i : Nat} (h : i < 1024) :
    s.currentFrame.bytes[i]? = some (s.bufByte i) := by
  simp [State.currentFrame, h]

theorem currentFrame_length (s : State) : s.currentFrame.bytes.length = 1024 := by
  simp only [State.currentFrame, List.length_map, List.length_range]

end Sys2Proof.Machine
end

