-- ==== Sys2Proof/Laws/Port.lean ====
section
/-! SUPPORT. The command port and the decoder are no operand of a command: every operation commutes with a change of them, so a
command run after its words were taken is the command run before. -/

namespace Sys2Proof.Machine

theorem setPixel_setPort (x y : Nat) (on : Bool) (s : State) (p : Option PendingString) (r : List PortEvent) :
    setPixel x y on (s.setPort p r) = (setPixel x y on s).setPort p r := by
  unfold setPixel; split <;> rfl

/-- A loop whose turns commute with a change of the port commutes with it (R9). -/
theorem forRange_setPort (n : Nat) (f : Nat → State → State)
    (hf : ∀ i s p r, f i (State.setPort s p r) = (f i s).setPort p r)
    (s : State) (p : Option PendingString) (r : List PortEvent) :
    forRange n f (s.setPort p r) = (forRange n f s).setPort p r := by
  induction n with
  | zero => rfl
  | succ n ih =>
    show f n _ = State.setPort (f n _) _ _
    rw [ih, hf]

theorem paintSquare_setPort (x y side : Nat) (on : Bool) (s : State) (p : Option PendingString) (r : List PortEvent) :
    paintSquare x y side on (s.setPort p r) = (paintSquare x y side on s).setPort p r :=
  forRange_setPort _ _ (fun _ => forRange_setPort _ _ (fun _ => setPixel_setPort _ _ _)) s p r

theorem paintCross_setPort (x y : Nat) (s : State) (p : Option PendingString) (r : List PortEvent) :
    paintCross x y (s.setPort p r) = (paintCross x y s).setPort p r :=
  forRange_setPort _ _ (fun i s p r => by simp only [setPixel_setPort]) s p r

theorem drawChar_setPort (glyph : Nat → Nat → Byte) (ch : Byte) (x y : Nat) (s : State) (p : Option PendingString)
    (r : List PortEvent) : drawChar glyph ch x y (s.setPort p r) = (drawChar glyph ch x y s).setPort p r :=
  forRange_setPort _ _ (fun _ => forRange_setPort _ _ (fun _ => setPixel_setPort _ _ _)) s p r

theorem drawChars_setPort (glyph : Nat → Nat → Byte) (chars : List Byte) (cx cy : Nat) (s : State)
    (p : Option PendingString) (r : List PortEvent) :
    drawChars glyph chars cx cy (s.setPort p r) = (drawChars glyph chars cx cy s).setPort p r := by
  induction chars generalizing cx cy s with
  | nil => rfl
  | cons ch rest ih =>
    simp only [drawChars]
    split
    · rfl
    · rw [drawChar_setPort, ih]

theorem fillBuffer_setPort (v : Bool) (s : State) (p : Option PendingString) (r : List PortEvent) :
    fillBuffer v (s.setPort p r) = (fillBuffer v s).setPort p r := by
  simp only [fillBuffer, State.setBuf_setPort]

theorem moveUp_setPort (s : State) (p : Option PendingString) (r : List PortEvent) :
    moveUp (s.setPort p r) = (moveUp s).setPort p r := by
  unfold moveUp
  rw [apply_ite (State.setPort · p r)]
  rfl

theorem moveDown_setPort (s : State) (p : Option PendingString) (r : List PortEvent) :
    moveDown (s.setPort p r) = (moveDown s).setPort p r := by
  unfold moveDown
  rw [apply_ite (State.setPort · p r)]
  rfl

theorem moveLeft_setPort (s : State) (p : Option PendingString) (r : List PortEvent) :
    moveLeft (s.setPort p r) = (moveLeft s).setPort p r := by
  unfold moveLeft
  rw [apply_ite (State.setPort · p r)]
  rfl

theorem moveRight_setPort (s : State) (p : Option PendingString) (r : List PortEvent) :
    moveRight (s.setPort p r) = (moveRight s).setPort p r := by
  unfold moveRight
  rw [apply_ite (State.setPort · p r)]
  rfl

theorem sweepTick_setPort (s : State) (p : Option PendingString) (r : List PortEvent) :
    sweepTick (s.setPort p r) = (sweepTick s).setPort p r := by
  have hd : ((s.setPort p r).setDir (1 - s.dir)).setStepCount 0 = ((s.setDir (1 - s.dir)).setStepCount 0).setPort p r := rfl
  simp only [sweepTick, State.setPort_mode, State.setPort_stepCount, State.setPort_dir, moveRight_setPort,
    moveLeft_setPort, hd, moveDown_setPort]
  by_cases hm : s.mode = 1
  · by_cases hs : s.stepCount < 14
    · by_cases h0 : s.dir = 0
      · simp only [hm, hs, h0, if_true]; rfl
      · simp only [hm, hs, h0, if_true, if_false]; rfl
    · simp only [hm, hs, if_true, if_false]
  · simp only [hm, if_false]

theorem redraw_setPort (s : State) (p : Option PendingString) (r : List PortEvent) :
    redraw (s.setPort p r) = (redraw s).setPort p r := by
  simp only [redraw_eq, State.setPort_posX, State.setPort_posY, State.setPort_prevX, State.setPort_prevY,
    paintSquare_setPort]
  rfl

theorem readReg_setPort (n : Byte) (s : State) (p : Option PendingString) (r : List PortEvent) :
    readReg n (s.setPort p r) = readReg n s := by
  unfold readReg; split <;> rfl

/-- What a command does is the same whatever the port and the decoder hold, and it leaves them alone (R89). -/
theorem exec_setPort (i : Instr) (s : State) :
    ∃ t : State, ∀ p r, exec i (s.setPort p r) = .next (t.setPort p r) := by
  cases i with
  | setpx x y on => exact ⟨setPixel x.toNat y.toNat on s, fun p r => by simp only [exec, execSetpx, setPixel_setPort]⟩
  | getpx x y =>
    exact ⟨emitResponse (if getPixel x.toNat y.toNat s then 0x01 else 0x00) s, fun _ _ => rfl⟩
  | fill v => exact ⟨fillBuffer v s, fun p r => by simp only [exec, execFill, fillBuffer_setPort]⟩
  | drawsq x y d =>
    exact ⟨paintSquare x.toNat y.toNat d.toNat true s, fun p r => by simp only [exec, execDrawsq, paintSquare_setPort]⟩
  | erasesq x y d =>
    exact ⟨paintSquare x.toNat y.toNat d.toNat false s, fun p r => by simp only [exec, execErasesq, paintSquare_setPort]⟩
  | drawx x y => exact ⟨paintCross x.toNat y.toNat s, fun p r => by simp only [exec, execDrawx, paintCross_setPort]⟩
  | drawch x y c =>
    exact ⟨drawChar Config.glyph c x.toNat y.toNat s, fun p r => by simp only [exec, execDrawch, drawChar_setPort]⟩
  | drawstr x y cs =>
    exact ⟨drawChars Config.glyph cs x.toNat y.toNat s, fun p r => by simp only [exec, execDrawstr, drawChars_setPort]⟩
  | present => exact ⟨emitFrame s, fun _ _ => rfl⟩
  | mvup => exact ⟨moveUp s, fun p r => by simp only [exec, execMvup, moveUp_setPort]⟩
  | mvdown => exact ⟨moveDown s, fun p r => by simp only [exec, execMvdown, moveDown_setPort]⟩
  | mvleft => exact ⟨moveLeft s, fun p r => by simp only [exec, execMvleft, moveLeft_setPort]⟩
  | mvright => exact ⟨moveRight s, fun p r => by simp only [exec, execMvright, moveRight_setPort]⟩
  | setmode m => exact ⟨setMode m s, fun _ _ => rfl⟩
  | tick => exact ⟨sweepTick s, fun p r => by simp only [exec, execTick, sweepTick_setPort]⟩
  | render =>
    by_cases h : s.posChanged = true
    · exact ⟨redraw s, fun p r => by
        have h' : (s.setPort p r).posChanged = true := h
        simp only [exec, execRender, h', if_true, redraw_setPort]⟩
    · exact ⟨s, fun p r => by
        have h' : ¬(s.setPort p r).posChanged = true := h
        simp only [exec, execRender, if_neg h']⟩
  | cmdUp => exact ⟨moveUp (setMode false s), fun p r => congrArg Host.Outcome.next (moveUp_setPort (setMode false s) p r)⟩
  | cmdLeft =>
    exact ⟨moveLeft (setMode false s), fun p r => congrArg Host.Outcome.next (moveLeft_setPort (setMode false s) p r)⟩
  | cmdRight =>
    exact ⟨moveRight (setMode false s), fun p r => congrArg Host.Outcome.next (moveRight_setPort (setMode false s) p r)⟩
  | cmdDown =>
    exact ⟨moveDown (setMode false s), fun p r => congrArg Host.Outcome.next (moveDown_setPort (setMode false s) p r)⟩
  | cmdAuto => exact ⟨setMode true s, fun _ _ => rfl⟩
  | rdreg n =>
    exact ⟨emitResponse (readReg n s) s, fun p r => by
      simp only [exec, execRdreg, readReg_setPort]
      rfl⟩

end Sys2Proof.Machine
end

