-- ==== Sys2Proof/Machine/ReferenceHost.lean ====
section
/-! DEFINITION. Word sequences the spec records for the host: one turn of the reference loop (44_host_commands.md R159) and
the boot sequence (70_reset_and_hazards.md R192). They are not part of the block and no meaning uses them. -/

namespace Sys2Proof.Machine

/-- One turn of the reference host loop: the requests that arrived, then RENDER, then TICK (R159). -/
def hostLoopWords (requests : List Byte) : List Word :=
  requests.map cmdWord ++ encode .render ++ encode .tick

/-- What the host does after reset before the display shows the state: FILL 0, the robot at its starting cell, any other
drawing, PRESENT (R192, steps 1 to 4). -/
def bootWords (p : ResetParams) (drawing : List Word) : List Word :=
  pseudoWords .clear ++ pseudoWords (.robot p.initX p.initY) ++ drawing ++ encode .present

end Sys2Proof.Machine
end

