-- ==== Sys2Proof/Tests/Slice0.lean ====
section
/-! SUPPORT. The model's own tests. Every expected value is the spec's: the vectors of 95_test_vectors.md (A1 to A9, B1 to B13)
or the example of the rule named. -/

namespace Sys2Proof.Tests

open Sys2Proof.Machine

/-! ### WellFormed: the one check refuses a string longer than its length field (R82, R87) -/

theorem test_wf_refuses_256_characters : (Instr.drawstr 0 0 (List.replicate 256 0x41)).wf = false := by decide +kernel
theorem test_wf_takes_255_characters : (Instr.drawstr 0 0 (List.replicate 255 0x41)).wf = true := by decide +kernel
theorem test_wf_takes_empty_string : (Instr.drawstr 255 255 []).wf = true := by decide

/-! ### Decoding, one word per constructor (B13) -/

theorem test_decode_setpx : decode [0x01010201] = .ok (.setpx 1 2 true) := by decide
theorem test_decode_getpx : decode [0x02010200] = .ok (.getpx 1 2) := by decide
theorem test_decode_fill : decode [0x03000001] = .ok (.fill true) := by decide
theorem test_decode_drawsq : decode [0x04010203] = .ok (.drawsq 1 2 3) := by decide
theorem test_decode_erasesq : decode [0x05010203] = .ok (.erasesq 1 2 3) := by decide
theorem test_decode_drawx : decode [0x06010200] = .ok (.drawx 1 2) := by decide
theorem test_decode_drawch : decode [0x07010241] = .ok (.drawch 1 2 0x41) := by decide
theorem test_decode_present : decode [0x09000000] = .ok .present := by decide
theorem test_decode_mvup : decode [0x10000000] = .ok .mvup := by decide
theorem test_decode_mvdown : decode [0x11000000] = .ok .mvdown := by decide
theorem test_decode_mvleft : decode [0x12000000] = .ok .mvleft := by decide
theorem test_decode_mvright : decode [0x13000000] = .ok .mvright := by decide
theorem test_decode_setmode : decode [0x14000001] = .ok (.setmode true) := by decide
theorem test_decode_tick : decode [0x15000000] = .ok .tick := by decide
theorem test_decode_render : decode [0x16000000] = .ok .render := by decide
theorem test_decode_cmdUp : decode [0x20000000] = .ok .cmdUp := by decide
theorem test_decode_cmdLeft : decode [0x20000001] = .ok .cmdLeft := by decide
theorem test_decode_cmdRight : decode [0x20000002] = .ok .cmdRight := by decide
theorem test_decode_cmdDown : decode [0x20000003] = .ok .cmdDown := by decide
theorem test_decode_cmdAuto : decode [0x20000004] = .ok .cmdAuto := by decide
theorem test_decode_rdreg : decode [0x30000007] = .ok (.rdreg 7) := by decide
theorem test_decode_drawstr : decode [0x08010201, 0x00000041] = .ok (.drawstr 1 2 [0x41]) := by decide
/-- B7: five characters take two payload words, the first character lowest. -/
theorem test_decode_hello :
    decode [0x08000005, 0x4C4C4548, 0x0000004F] = .ok (.drawstr 0 0 [0x48, 0x45, 0x4C, 0x4C, 0x4F]) := by decide
/-- R88: bytes of the last payload word beyond the string's end are ignored. -/
theorem test_decode_ignores_bytes_past_end :
    decode [0x08760003, 0xFF314241] = .ok (.drawstr 0x76 0 [0x41, 0x42, 0x31]) := by decide
/-- B13: a payload word that looks like FILL 1 is four characters. -/
theorem test_decode_payload_is_data :
    decode [0x08000004, 0x03000001] = .ok (.drawstr 0 0 [0x01, 0x00, 0x00, 0x03]) := by decide
/-- B13: one payload word where two are owed. -/
theorem test_decode_incomplete : decode [0x08000005, 0x00000041] = .error .incompleteString := by decide

/-! ### Reserved bits are ignored, flags read bit 0 only (R86; B2, B3, B9, B10) -/

theorem test_decode_setpx_flag_is_bit0 : decode [0x010000FE] = .ok (.setpx 0 0 false) := by decide
theorem test_decode_fill_ignores_a_b : decode [0x03123401] = .ok (.fill true) := by decide
theorem test_decode_setmode_c_two_is_manual : decode [0x14000002] = .ok (.setmode false) := by decide
theorem test_decode_drawx_ignores_c : decode [0x06000014] = .ok (.drawx 0 0) := by decide
theorem test_decode_cmd_ignores_a_b : decode [0x20ABCD00] = .ok .cmdUp := by decide

/-! ### Words of no row, by name (B10, B13) -/

theorem test_decode_zero_is_reserved : decode [0] = .error (.rejected (.reservedOpcode 0)) := by decide
theorem test_decode_reserved_0a : decode [0x0A123456] = .error (.rejected (.reservedOpcode 0x0A)) := by decide
theorem test_decode_reserved_17 : decode [0x17000000] = .error (.rejected (.reservedOpcode 0x17)) := by decide
theorem test_decode_reserved_ff : decode [0xFFFFFFFF] = .error (.rejected (.reservedOpcode 0xFF)) := by decide
theorem test_decode_cmd_five : decode [0x20000005] = .error (.rejected (.unrecognisedCmd 5)) := by decide
theorem test_decode_no_word : decode [] = .error .noWord := by decide

/-! ### Encoding (R88, R90, R91; B7) -/

theorem test_encode_drawsq : encode (.drawsq 8 8 8) = [0x04080808] := by decide
theorem test_encode_setpx : encode (.setpx 5 10 true) = [0x01050A01] := by decide
theorem test_encode_ab1 : encode (.drawstr 118 0 [0x41, 0x42, 0x31]) = [0x08760003, 0x00314241] := by decide
theorem test_encode_cmd_auto : encode .cmdAuto = [0x20000004] := by decide
theorem test_pseudo_robot : pseudoWords (.robot 8 8) = [0x04080808] := by decide
theorem test_cmd_nine : cmdWord 9 = 0x20000009 := by decide
theorem test_table_word_drawstr : decodeTableWord 32 0x08010203 = some (.drawstr 1 2 [0, 0, 0]) := by decide
theorem test_boot_words : bootWords Config.resetParams [] = [0x03000000, 0x04080808, 0x09000000] := by decide
theorem test_host_loop : hostLoopWords [4] = [0x20000004, 0x16000000, 0x15000000] := by decide

/-! ### The address encoder and the glyph lookup (B1; R130, R131) -/

theorem test_index_100_37 : pixelIndex 100 37 = 804 ∧ pixelBit 37 = 5 ∧ pixelMask 37 = 0x20 := by decide
theorem test_index_127_63 : pixelIndex 127 63 = 1023 ∧ pixelMask 63 = 0x80 := by decide
theorem test_in_range_edges :
    inRange 127 63 = true ∧ inRange 128 0 = false ∧ inRange 0 64 = false ∧ inRange 255 255 = false := by decide
theorem test_glyph_rows :
    glyphRow 0x41 = some 11 ∧ glyphRow 0x5A = some 36 ∧ glyphRow 0x30 = some 1 ∧ glyphRow 0x39 = some 10 := by decide
theorem test_glyph_no_row :
    glyphRow 0x40 = none ∧ glyphRow 0x5B = none ∧ glyphRow 0x2F = none ∧ glyphRow 0x3A = none ∧
      glyphRow 0x61 = none := by decide

/-! ### Meanings, each one step -/

/-- The reset state with these bytes of the buffer written. -/
def withBuf (m : Memory) : State := State.reset.setBuf m

/-- The reset state with the robot's registers at these values. -/
def withRobot (x y px py : Byte) (d : Bit) (n : BitVec 4) (m : Bit) : State :=
  { State.reset with posX := x, posY := y, prevX := px, prevY := py, dir := d, stepCount := n, mode := m }

/-- The next state of one command, or the state itself. -/
def after (i : Instr) (s : State) : State :=
  match exec i s with
  | .next t => t
  | _ => s

/-- The made-up glyph table T of 95_test_vectors.md. -/
def tableT (row i : Nat) : Byte := if i < 5 then BitVec.ofNat 8 ((row + 3 * i) % 32) else 0

/-- Indices `start`, `start + 8`, ... with one byte value. -/
def columns (start n : Nat) (v : Byte) : Memory := (List.range n).map fun k => (start + 8 * k, v)

theorem test_setpx_sets_one_bit : (after (.setpx 5 9 true) (withBuf [(41, 0xA5)])).buf = [(41, 0xA7)] := by decide
theorem test_setpx_clears_one_bit : (after (.setpx 5 10 false) (withBuf [(41, 0xFF)])).buf = [(41, 0xFB)] := by decide
theorem test_setpx_out_of_range : after (.setpx 128 0 true) State.reset = State.reset := by decide
theorem test_getpx_on : (after (.getpx 5 10) (withBuf [(41, 0x04)])).out = [.rsp 0x01] := by decide
theorem test_getpx_out_of_range : (after (.getpx 200 10) State.reset).out = [.rsp 0x00] := by decide
theorem test_fill_byte : (after (.fill true) State.reset).bufByte 1023 = 0xFF := by decide +kernel
theorem test_fill_clear : (after (.fill false) (withBuf [(0, 0xFF)])).bufByte 0 = 0x00 := by decide +kernel
theorem test_drawsq_clipped :
    (after (.drawsq 124 60 8) (withBuf (columns 999 4 0))).buf = columns 999 4 0xF0 := by decide +kernel
theorem test_drawsq_no_wrap : after (.drawsq 250 0 8) State.reset = State.reset := by decide +kernel
theorem test_erasesq : (after (.erasesq 20 20 4) (withBuf (columns 162 4 0xFF))).buf = columns 162 4 0x0F := by
  decide +kernel
theorem test_drawx :
    (after (.drawx 0 0) (withBuf (columns 0 8 0))).buf =
      [(0, 0x81), (8, 0x42), (16, 0x24), (24, 0x18), (32, 0x18), (40, 0x24), (48, 0x42), (56, 0x81)] := by
  decide +kernel
theorem test_drawch_blank_clears_cell :
    (after (.drawch 0 0 0x20) (withBuf (columns 0 5 0xFF))).buf = columns 0 5 0xE0 := by decide +kernel
/-- B6, with the table T: 'A' on a buffer of ones. -/
theorem test_drawchar_A :
    (drawChar tableT 0x41 0 0 (withBuf (columns 0 5 0xFF))).buf =
      [(0, 0xEB), (8, 0xEE), (16, 0xF1), (24, 0xF4), (32, 0xF7)] := by decide +kernel
/-- B7, with the table T: "AB" from (120, 55) draws 'A' only. -/
theorem test_drawchars_stops :
    (drawChars tableT [0x41, 0x42] 120 55 (withBuf (columns 0 1 0))).buf.length = 11 := by decide +kernel
/-- B7, with the table T: a start at column 124 wraps before the first character. -/
theorem test_drawchars_wraps_first :
    (drawChars tableT [0x41] 124 0 (withBuf [(0, 0), (1, 0), (8, 0), (9, 0), (16, 0), (17, 0), (24, 0), (25, 0), (32, 0),
      (33, 0)])).buf =
      [(0, 0x60), (1, 0x01), (8, 0xC0), (9, 0x01), (16, 0x20), (17, 0x02), (24, 0x80), (25, 0x02), (32, 0xE0),
        (33, 0x02)] := by decide +kernel
theorem test_drawstr_no_room : after (.drawstr 0 60 [0x41]) State.reset = State.reset := by decide
theorem test_present_frame :
    ((after .present (withBuf [(0, 0x01)])).out.map fun o =>
      match o with
      | .frame f => (f.bytes[0]?, f.bytes.length, f.pages, f.width)
      | .rsp _ => (none, 0, 0, 0)) = [(some 0x01, 1024, 8, 128)] := by decide +kernel
theorem test_mvup : (after .mvup (withRobot 8 24 8 8 0 0 0)).posY = 16 := by decide
theorem test_mvup_bound : (after .mvup (withRobot 8 8 8 8 0 0 0)).posY = 8 := by decide
theorem test_mvdown : (after .mvdown (withRobot 8 48 8 8 0 0 0)).posY = 56 := by decide
theorem test_mvdown_bound : (after .mvdown (withRobot 8 56 8 8 0 0 0)).posY = 56 := by decide
theorem test_mvleft : (after .mvleft (withRobot 112 8 8 8 0 0 0)).posX = 104 := by decide
theorem test_mvleft_bound : (after .mvleft (withRobot 8 8 8 8 0 0 0)).posX = 8 := by decide
theorem test_mvright : after .mvright (withRobot 104 8 8 8 0 0 1) = withRobot 112 8 8 8 0 0 1 := by decide
theorem test_mvright_bound : (after .mvright (withRobot 112 8 8 8 0 0 0)).posX = 112 := by decide
theorem test_setmode_auto : (after (.setmode true) State.reset).levels.indAuto = true := by decide
theorem test_setmode_manual : (after (.setmode false) (withRobot 8 8 8 8 1 3 1)).levels.indManual = true := by decide
theorem test_tick_saturated_counts : after .tick (withRobot 112 8 8 8 0 13 1) = withRobot 112 8 8 8 0 14 1 := by decide
theorem test_tick_reverses : after .tick (withRobot 112 8 8 8 0 14 1) = withRobot 112 16 8 8 1 0 1 := by decide
theorem test_tick_bottom_row : after .tick (withRobot 8 56 8 8 1 14 1) = withRobot 8 56 8 8 0 0 1 := by decide
theorem test_tick_manual : after .tick (withRobot 8 24 8 8 1 3 0) = withRobot 8 24 8 8 1 3 0 := by decide
/-- B11: the old cell cleared, the new one set, one frame. -/
theorem test_render_moves_square :
    (after .render ((withRobot 16 8 8 8 0 0 0).setBuf (columns 65 8 0xFF ++ columns 129 8 0))).buf =
      columns 65 8 0x00 ++ columns 129 8 0xFF := by decide +kernel
theorem test_render_unchanged : after .render State.reset = State.reset := by decide
theorem test_cmd_up : after .cmdUp (withRobot 40 24 8 8 0 5 1) = withRobot 40 16 8 8 0 5 0 := by decide
theorem test_cmd_left_bound : after .cmdLeft (withRobot 8 8 8 8 0 0 1) = withRobot 8 8 8 8 0 0 0 := by decide
theorem test_cmd_right : after .cmdRight (withRobot 8 8 8 8 0 0 0) = withRobot 16 8 8 8 0 0 0 := by decide
theorem test_cmd_down : after .cmdDown (withRobot 112 48 8 8 0 0 1) = withRobot 112 56 8 8 0 0 0 := by decide
theorem test_cmd_auto : after .cmdAuto (withRobot 24 16 8 8 1 3 0) = withRobot 24 16 8 8 1 3 1 := by decide
theorem test_rdreg_status_reset : (after (.rdreg 7) State.reset).out = [.rsp 0x01] := by decide
/-- B12: after SETMODE 1 and one TICK, STATUS is 0x06. -/
theorem test_rdreg_status_changed : (after (.rdreg 7) (withRobot 16 8 8 8 0 1 1)).out = [.rsp 0x06] := by decide
theorem test_rdreg_unassigned : (after (.rdreg 11) State.reset).out = [.rsp 0x00] := by decide

/-! ### The stream (R85, R89, R190; B13) -/

/-- The reset state with these events on the command port. -/
def sent (events : List PortEvent) : State := State.reset.setPort none events

/-- What a step leaves pending and on the port, and `MODE`. -/
def left (s : State) : Option (Option PendingString × List PortEvent × Bit) :=
  match step s with
  | .next t => some (t.pending, t.input, t.mode)
  | _ => none

theorem test_step_nop : left (sent [.word 0, .word 0x14000001]) = some (none, [.word 0x14000001], 0) := by decide
theorem test_step_setmode : left (sent [.word 0x14000001]) = some (none, [], 1) := by decide
theorem test_step_waits :
    left (sent [.word 0x08000005, .word 0x14000001]) = some (some ⟨0, 0, 5, [0x14000001]⟩, [], 0) := by decide
theorem test_step_reset_discards_string :
    left (sent [.word 0x08000005, .word 0x41, .reset, .word 0]) = some (none, [.word 0], 0) := by decide
/-- R190, U20: a reset after 3 bytes of PRESENT's frame leaves those bytes on the frame port, and one during GETPX nothing. -/
theorem test_step_reset_cuts_frame :
    (match step ((sent [.cutWord 0x09000000 3]).setBuf [(0, 1), (1, 2), (2, 3), (3, 4)]) with
      | .next t => (t.out, t.buf, t.resets)
      | _ => ([], [], 0)) = ([.frame { bytes := [1, 2, 3], pages := 8, width := 128 }], [], 1) := by decide +kernel
theorem test_step_reset_drops_response :
    (match step (sent [.cutWord 0x02000000 0, .word 0]) with
      | .next t => (t.out, t.input)
      | _ => ([.rsp 0], [])) = ([], [.word 0]) := by decide
/-- R190: the command's effect on the registers is lost (SETMODE 1, cut short). -/
theorem test_step_reset_loses_mode : left (sent [.cutWord 0x14000001 0]) = some (none, [], 0) := by decide
theorem test_step_first_instruction :
    step (State.reset.withFetchWord 32 0x11000000) = .next (State.reset.setPosY 16) := by rfl

/-! ### Witnesses: a state and operands that meet the hypotheses of each statement, at a boundary of each clause -/

theorem witness_GlyphLookup : glyphRow 0x5A = some 36 ∧ glyphRow 0x5B = none := by decide
theorem witness_UnmappedCharacterClearsCell : glyphRow 0x40 = none := by decide
/-- R133's example: characters 0 and 1 of "AB1" at (118, 0) end the first line, character 2 starts the second; character 1 of
"AB" at (120, 55) has no line; pixel (127, 5) is in no cell. -/
theorem witness_DrawstrDrawsWrappedCells :
    stringCell 118 0 1 = (123, 0) ∧ cellDrawn 118 0 1 = true ∧ stringCell 118 0 2 = (0, 5) ∧ cellDrawn 118 0 2 = true ∧
      cellDrawn 120 55 0 = true ∧ cellDrawn 120 55 1 = false ∧
      ∀ k < 3, cellDrawn 118 0 k = true → inCell (stringCell 118 0 k) 127 5 = false := by decide
theorem witness_DrawxSetsDiagonals : (0 : Byte).toNat + 7 < 128 ∧ (56 : Byte).toNat + 7 < 64 := by decide
theorem witness_DrawchDrawsCell :
    (123 : Byte).toNat + 4 < 128 ∧ (59 : Byte).toNat + 4 < 64 ∧ inCell (123, 59) 122 59 = false := by decide
theorem witness_EncoderIsWiring : (127 : Byte).toNat < 128 ∧ (63 : Byte).toNat < 64 := by decide
theorem witness_OnePixelOneBit : 127 < 128 ∧ 63 < 64 ∧ 1023 < 1024 ∧ 7 < 8 := by decide
theorem witness_SetThenGetReturnsValue : (127 : Byte).toNat < 128 ∧ (63 : Byte).toNat < 64 := by decide

theorem witness_SweepCoversRowIn15Ticks :
    let s := withRobot 8 8 8 8 0 0 1
    s.posX = 8 ∧ s.dir = 0 ∧ s.stepCount = 0 ∧ s.mode = 1 ∧ s.posY = 8 := by decide
/-- The first clause anywhere on the bottom row, the second at its left end. -/
theorem witness_BottomRowSweepsForever :
    (withRobot 112 56 8 8 1 14 1).posY = 56 ∧ (withRobot 112 56 8 8 1 14 1).mode = 1 ∧
      let s := withRobot 8 56 8 8 0 0 1
      s.posX = 8 ∧ s.posY = 56 ∧ s.dir = 0 ∧ s.stepCount = 0 ∧ s.mode = 1 := by decide

theorem witness_UnrecognisedCmdIsIgnored :
    5 ≤ (5 : Byte).toNat ∧ 5 ≤ (255 : Byte).toNat ∧ (sent [.word 0x20000005, .word 0]).pending = none ∧
      (sent [.word 0x20000005, .word 0]).input = .word (headerWord 0x20 0 0 5) :: [.word 0] := by decide
theorem witness_ReservedOpcodeIsIgnored :
    opField 0x0A123456 ∉ ([0x01, 0x02, 0x03, 0x04, 0x05, 0x06, 0x07, 0x08, 0x09, 0x10, 0x11, 0x12, 0x13, 0x14, 0x15, 0x16,
      0x20, 0x30] : List Byte) ∧ (sent [.word 0x0A123456]).pending = none ∧
      (sent [.word 0x0A123456]).input = .word 0x0A123456 :: [] := by decide
theorem witness_RenderRedrawsChangedPosition :
    (State.reset.posX = State.reset.prevX ∧ State.reset.posY = State.reset.prevY) ∧
      let s := withRobot 112 56 8 8 0 0 0
      ¬(s.posX = s.prevX ∧ s.posY = s.prevY) := by decide

theorem witness_FetchOfEncodeIsInstruction : (Instr.drawstr 255 255 (List.replicate 255 0x5A)).wf = true := by
  decide +kernel
theorem witness_DecodedInstructionsAreWellFormed :
    decode [0x08000004, 0xFFFFFFFF] = .ok (.drawstr 0 0 [0xFF, 0xFF, 0xFF, 0xFF]) ∧
      fetch (some ⟨1, 2, 5, [0x44434241]⟩) [.word 0x45] = .command (.drawstr 1 2 [0x41, 0x42, 0x43, 0x44, 0x45]) [] ∧
      fetch none [.cutWord 0x15000000 0] = .cutCommand .tick 0 [] := by
  decide
/-- For each clause two different words that agree on what the format reads. -/
theorem witness_ReservedFieldsAreIgnored :
    (opField 0x15FFFFFF = opField 0x15000000 ∧
      opField 0x15FFFFFF ∈ ([0x09, 0x10, 0x11, 0x12, 0x13, 0x15, 0x16] : List Byte)) ∧
    (opField 0x03FFFFFF = opField 0x03000001 ∧ opField 0x03FFFFFF ∈ ([0x03, 0x14] : List Byte) ∧
      (0x03FFFFFF : Word).getLsbD 0 = (0x03000001 : Word).getLsbD 0) ∧
    (opField 0x060102FF = opField 0x06010200 ∧ opField 0x060102FF ∈ ([0x02, 0x06] : List Byte) ∧
      xField 0x060102FF = xField 0x06010200 ∧ yField 0x060102FF = yField 0x06010200) ∧
    (opField 0x010102FE = opField 0x01010200 ∧ opField 0x010102FE = 0x01 ∧ xField 0x010102FE = xField 0x01010200 ∧
      yField 0x010102FE = yField 0x01010200 ∧ (0x010102FE : Word).getLsbD 0 = (0x01010200 : Word).getLsbD 0) ∧
    (opField 0x20FFFF04 = opField 0x20000004 ∧ opField 0x20FFFF04 ∈ ([0x20, 0x30] : List Byte) ∧
      cField 0x20FFFF04 = cField 0x20000004) := by decide
theorem witness_StepRunsDecodedCommand :
    (let s := sent [.word 0x08000001, .word 0x41, .reset]
     s.pending = none ∧ s.input = [0x08000001, 0x41].map .word ++ [.reset] ∧
       [0x08000001, 0x41].length = commandLength ([0x08000001, 0x41].headD 0) ∧
       decode [0x08000001, 0x41] = .ok (.drawstr 0 0 [0x41])) ∧
    let p : PendingString := ⟨0, 0, 5, [0x44434241]⟩
    let s := State.reset.setPort (some p) [.word 0x45]
    s.pending = some p ∧ 0 < p.need ∧ [(0x45 : Word)].length = p.need ∧ s.input = [0x45].map .word ++ [] := by decide
theorem witness_IncompleteStringOnlyWaits :
    let s := sent [.word 0x08000005, .word 0x44434241]
    s.pending = none ∧ [(0x44434241 : Word)].length < payloadWords 5 ∧
      s.input = (headerWord 0x08 0 0 5 :: [0x44434241]).map .word := by decide
theorem witness_IdleBlockHoldsState : State.reset.input = [] := by decide

theorem witness_ResetDiscardsEverything :
    (sent [.reset, .word 0]).input = .reset :: [.word 0] ∧
      let p : PendingString := ⟨0, 0, 5, []⟩
      let s := State.reset.setPort (some p) [.word 0x41, .reset]
      s.pending = some p ∧ [(0x41 : Word)].length < p.need ∧ s.input = [0x41].map .word ++ .reset :: [] := by decide
/-- A reset during a payload word that does not complete the DRAWSTR, during the one that does, and during a header. -/
theorem witness_ResetDiscardsEverything_cut :
    (let p : PendingString := ⟨0, 0, 5, []⟩
     let s := State.reset.setPort (some p) [.word 0x41, .cutWord 0x42 7]
     s.pending = some p ∧ ([] : List Word).length < p.need ∧ [(0x41 : Word)].length < p.need ∧
       s.input = [0x41].map .word ++ .cutWord 0x42 7 :: []) ∧
    let s := sent [.cutWord 0x08000001 0, .word 0]
    s.pending = none ∧ s.input = .cutWord 0x08000001 0 :: [.word 0] ∧
      decodeFirst 0x08000001 = .stringHeader 0 0 1 := by decide
/-- PRESENT cut after one byte, and a DRAWSTR cut in its last word. -/
theorem witness_ResetDuringCommandCutsOutput :
    (let s := sent [.cutWord 0x09000000 1]
     s.pending = none ∧ s.input = [].map .word ++ .cutWord 0x09000000 1 :: [] ∧
       ([] ++ [(0x09000000 : Word)]).length = commandLength (([] ++ [0x09000000]).headD 0) ∧
       decode ([] ++ [0x09000000]) = .ok .present) ∧
    let s := sent [.word 0x08000001, .cutWord 0x41 0]
    s.input = [0x08000001].map .word ++ .cutWord 0x41 0 :: [] ∧
      ([0x08000001] ++ [(0x41 : Word)]).length = commandLength (([0x08000001] ++ [0x41]).headD 0) ∧
      decode ([0x08000001] ++ [0x41]) = .ok (.drawstr 0 0 [0x41]) := by decide
/-- A step that takes a word and leaves a DRAWSTR pending, and one that is cut short. -/
theorem witness_EveryStepKeepsStreamMeaning :
    step (sent [.word 0x08000001]) = .next ((sent []).setPort (some ⟨0, 0, 1, []⟩) []) ∧
      step (sent [.cutWord 0x15000000 0, .word 0]) = .next (resetBlock [.word 0] (sent [])) := ⟨rfl, rfl⟩
theorem witness_ResetMeetsInvariant : ({ initX := 112, initY := 56, initDir := 1, initMode := 1 } : ResetParams).legal = true := by
  decide
/-- Both bounds of the lattice, `STEP` 14, the last byte of the buffer written, a DRAWSTR that owes one word. -/
theorem witness_EveryStepKeepsInvariant :
    let s := { withRobot 112 56 8 8 1 14 1 with buf := [(1023, 0xFF)], pending := some ⟨0, 0, 1, []⟩, input := [.reset] }
    s.Inv ∧ step s = .next (resetBlock [] s) :=
  ⟨⟨by decide, by decide, by decide, by decide⟩, rfl⟩
/-- A command that changes the mode, a reset that does, and a reset during a command that does. -/
theorem witness_ModeChangesOnlyByCommand :
    (step (sent [.word 0x20000004]) = .next (State.reset.setMode 1) ∧ (State.reset.setMode 1).mode ≠ (sent []).mode) ∧
      let s := (State.reset.setMode 1).setPort none [.reset]
      (step s = .next (resetBlock [] s) ∧ (resetBlock [] s).mode ≠ s.mode) ∧
        fetch none [.cutWord 0x15000000 0] = .cutCommand .tick 0 [] ∧
        step (s.setPort none [.cutWord 0x15000000 0]) = .next (resetBlock [] s) :=
  ⟨⟨rfl, by decide⟩, ⟨rfl, by decide⟩, rfl, rfl⟩
theorem witness_BufferNeverInfluencesRobot :
    let s := sent [.word 0x16000000]
    let t := { s with buf := [(0, 0xFF)], resets := 1, out := [.rsp 0] }
    SameRobot s t ∧ SamePort s t ∧ s.buf ≠ t.buf :=
  ⟨⟨rfl, rfl, rfl, rfl, rfl, rfl, rfl⟩, ⟨rfl, rfl⟩, by decide⟩
theorem witness_RobotReachesPictureOnlyByRender :
    Instr.drawsq 0 0 8 ≠ .render ∧ SamePixels State.reset (withRobot 112 56 8 8 1 14 1) ∧
      State.reset ≠ withRobot 112 56 8 8 1 14 1 :=
  ⟨by decide, fun _ _ => rfl, by decide⟩

end Sys2Proof.Tests
end

/-! ## The command port: what a fetch takes from it, and the statements of 00_scope.md -/

namespace Sys2Proof

/-! ### The first word of a command (R83, R87, R89) -/

/-- A header that owes payload is exactly a DRAWSTR word of nonzero length, read by its fields (R83, R89). -/
theorem decodeFirst_eq_stringHeader_iff {w : Word} {x y len : Byte} :
    decodeFirst w = .stringHeader x y len ↔
      opField w = 0x08 ∧ cField w ≠ 0 ∧ xField w = x ∧ yField w = y ∧ cField w = len := by
  constructor
  · intro h
    unfold decodeFirst at h
    split at h
    case h_8 hop =>
      split at h
      case isTrue => cases h
      case isFalse hc => cases h; exact ⟨hop, hc, rfl, rfl, rfl⟩
    case h_17 => unfold decodeCmd at h; split at h <;> cases h
    all_goals cases h
  · rintro ⟨hop, hc, rfl, rfl, rfl⟩
    simp only [decodeFirst, hop]
    exact if_neg hc

/-- A header says how many payload words follow it (R87). -/
theorem commandLength_of_stringHeader {w : Word} {x y len : Byte} (h : decodeFirst w = .stringHeader x y len) :
    commandLength w = 1 + payloadWords len := by
  obtain ⟨hop, -, -, -, rfl⟩ := decodeFirst_eq_stringHeader_iff.1 h
  rw [commandLength, if_pos hop]

/-- A word that is a whole command says that nothing follows it; a DRAWSTR of length 0 is one (R87). -/
theorem commandLength_of_command {w : Word} {i : Instr} (h : decodeFirst w = .command i) : commandLength w = 1 := by
  unfold commandLength
  split
  case isTrue hop =>
    have hc : cField w = 0 := by
      by_contra hc
      have hw := decodeFirst_eq_stringHeader_iff.2 ⟨hop, hc, rfl, rfl, rfl⟩
      cases h.symm.trans hw
    rw [hc]; rfl
  case isFalse => rfl

/-! ### What the stream decoder answers at a word (R89) -/

theorem fetchFirst_word_of_command {w : Word} {i : Instr} (h : decodeFirst w = .command i) (rest : List PortEvent) :
    fetchFirst (.word w :: rest) = .command i rest := by
  simp only [fetchFirst, h]

theorem fetchFirst_word_of_stringHeader {w : Word} {x y len : Byte} (h : decodeFirst w = .stringHeader x y len)
    (rest : List PortEvent) :
    fetchFirst (.word w :: rest) = gatherPayload rest { x := x, y := y, len := len, payload := [] } := by
  simp only [fetchFirst, h]

theorem fetchFirst_word_of_noCommand {w : Word} {r : Reject} (h : decodeFirst w = .noCommand r) (rest : List PortEvent) :
    fetchFirst (.word w :: rest) = .noCommand r rest := by
  simp only [fetchFirst, h]

theorem fetch_of_need_pos {p : PendingString} (h : 0 < p.need) (input : List PortEvent) :
    fetch (some p) input = gatherPayload input p :=
  if_neg (Nat.ne_of_gt h)

/-- A header followed by all the payload it owes is its DRAWSTR, whatever comes after (R87, R89). -/
theorem fetchFirst_whole_string {w : Word} {x y len : Byte} {payload : List Word}
    (hw : decodeFirst w = .stringHeader x y len) (hl : payload.length = payloadWords len) (rest : List PortEvent) :
    fetchFirst ((w :: payload).map .word ++ rest) = .command (.drawstr x y (unpackChars len.toNat payload)) rest := by
  have hn : 0 < payloadWords len := Machine.payloadWords_pos (Machine.decodeFirst_header hw)
  rw [List.map_cons, List.cons_append, fetchFirst_word_of_stringHeader hw]
  exact gatherPayload_complete payload { x := x, y := y, len := len, payload := [] } hn hl rest

/-- A decoded list of words is one that the stream decoder finds a command at the head of. -/
theorem decode_eq_ok_iff {ws : List Word} {i : Instr} :
    decode ws = .ok i ↔ ∃ rest, fetchFirst (ws.map .word) = .command i rest := by
  unfold decode
  split
  case h_1 j rest hf => simp [hf]
  all_goals next hf => simp [hf]

/-- As many words as the first one says, if they decode, are taken from the port as that instruction, and what follows them
stays there (R87, R89). -/
theorem fetchFirst_of_decode {ws : List Word} {i : Instr} (hl : ws.length = commandLength (ws.headD 0))
    (hd : decode ws = .ok i) (rest : List PortEvent) : fetchFirst (ws.map .word ++ rest) = .command i rest := by
  obtain ⟨after, hf⟩ := decode_eq_ok_iff.1 hd
  cases ws with
  | nil => cases hf
  | cons w payload =>
    rw [List.length_cons, List.headD_cons] at hl
    cases hw : decodeFirst w with
    | command j =>
      rw [commandLength_of_command hw] at hl
      have hp : payload = [] := List.length_eq_zero_iff.1 (by omega)
      subst hp
      cases (fetchFirst_word_of_command hw []).symm.trans hf
      exact fetchFirst_word_of_command hw rest
    | stringHeader x y len =>
      rw [commandLength_of_stringHeader hw] at hl
      have hwhole := fetchFirst_whole_string hw (payload := payload) (by omega)
      have halone := hwhole []
      rw [List.append_nil] at halone
      cases halone.symm.trans hf
      exact hwhole rest
    | noCommand r => cases (fetchFirst_word_of_noCommand hw _).symm.trans hf

/-! ### What a fetch leaves on the port (R89, R190) -/

/-- The events that a fetch leaves on the port. -/
def Fetched.left : Fetched → List PortEvent
  | .idle | .waiting _ => []
  | .reset rest | .noCommand _ rest | .command _ rest | .cutCommand _ _ rest => rest

theorem gatherPayload_left_suffix (input : List PortEvent) (p : PendingString) :
    (gatherPayload input p).left <:+ input := by
  induction input generalizing p with
  | nil => exact List.suffix_rfl
  | cons e rest ih =>
    cases e with
    | reset => exact List.suffix_cons _ rest
    | word w =>
      simp only [gatherPayload]
      split
      · exact List.suffix_cons _ rest
      · exact (ih (p.push w)).trans (List.suffix_cons _ rest)
    | cutWord w taken =>
      simp only [gatherPayload]
      split <;> exact List.suffix_cons _ rest

theorem fetchFirst_left_suffix (input : List PortEvent) : (fetchFirst input).left <:+ input := by
  cases input with
  | nil => exact List.suffix_rfl
  | cons e rest =>
    cases e with
    | reset => exact List.suffix_cons _ rest
    | word w =>
      cases hw : decodeFirst w with
      | command i =>
        rw [fetchFirst_word_of_command hw]
        exact List.suffix_cons _ rest
      | stringHeader x y len =>
        rw [fetchFirst_word_of_stringHeader hw]
        exact (gatherPayload_left_suffix rest _).trans (List.suffix_cons _ rest)
      | noCommand r =>
        rw [fetchFirst_word_of_noCommand hw]
        exact List.suffix_cons _ rest
    | cutWord w taken =>
      simp only [fetchFirst]
      split <;> exact List.suffix_cons _ rest

/-- A fetch takes events from the front of the port only (R89). -/
theorem fetch_left_suffix (pending : Option PendingString) (input : List PortEvent) :
    (fetch pending input).left <:+ input := by
  unfold fetch
  split
  · exact fetchFirst_left_suffix input
  · split
    · exact fetchFirst_left_suffix input
    · exact gatherPayload_left_suffix input _

end Sys2Proof

namespace Sys2Proof.Machine

/-! ### What a step does with the port (R10, R62, R89, R170) -/

/-- A command completes, and leaves the decoder and the command port as they were (R10, R89). -/
theorem exec_next_port (i : Instr) (s : State) :
    ∃ t, exec i s = .next t ∧ t.pending = s.pending ∧ t.input = s.input := by
  obtain ⟨t, ht⟩ := exec_setPort i s
  exact ⟨t.setPort s.pending s.input, by simpa using ht s.pending s.input, rfl, rfl⟩

/-- A word of no row does nothing (R155, R158). -/
theorem execNoCommand_eq (r : Reject) (s : State) : execNoCommand r s = .next s := by
  cases r <;> rfl

/-- A whole command at the head of the port is run on the state with its words taken (R10). -/
theorem step_of_fetch_command {s : State} {i : Instr} {rest : List PortEvent}
    (h : fetch s.pending s.input = .command i rest) : step s = exec i (s.setPort none rest) := by
  simp only [step, h]

/-- Every step answers a next state (R170). -/
theorem step_safe (s : State) : SafeStep s := by
  unfold SafeStep step
  split
  case h_1 => exact ⟨_, rfl⟩
  case h_2 => exact ⟨_, rfl⟩
  case h_3 => exact ⟨_, rfl⟩
  case h_4 r rest _ => exact ⟨_, execNoCommand_eq r _⟩
  case h_5 i rest _ =>
    obtain ⟨t, ht, -, -⟩ := exec_next_port i (s.setPort none rest)
    exact ⟨t, ht⟩
  case h_6 i taken rest _ =>
    obtain ⟨t, ht, -, -⟩ := exec_next_port i (s.setPort none rest)
    exact ⟨resetExecuting taken rest s t, by rw [ht]; rfl⟩

/-- After a step the port holds what the fetch left there; an idle step leaves it alone (R89). -/
theorem step_input {s t : State} (h : step s = .next t) :
    t = s ∨ t.input = (fetch s.pending s.input).left := by
  obtain ⟨-, rfl⟩ | ⟨p, hf, rfl⟩ | ⟨rest, hf, rfl⟩ | ⟨r, rest, hf, rfl⟩ | ⟨i, rest, hf, ht⟩ |
    ⟨i, taken, rest, u, hf, -, rfl⟩ := step_cases h
  · exact .inl rfl
  case inr.inr.inr.inr.inl =>
    obtain ⟨u, hu, -, hin⟩ := exec_next_port i (s.setPort none rest)
    cases ht.symm.trans hu
    exact .inr (by rw [hf, hin]; rfl)
  all_goals exact .inr (by rw [hf]; rfl)

/-- A step takes events from the front of the port only (R10, R62). -/
theorem step_input_suffix {s t : State} (h : step s = .next t) : t.input <:+ s.input := by
  obtain rfl | hin := step_input h
  · exact List.suffix_rfl
  · rw [hin]
    exact fetch_left_suffix s.pending s.input

/-! ### The obligations -/

/-- Settles O44: every step completes, and what it leaves on the port is a suffix of what was there. -/
theorem stepTakesFromFrontOfPort : Obligations.StepTakesFromFrontOfPort := by
  intro s
  obtain ⟨t, ht⟩ := step_safe s
  obtain ⟨taken, htaken⟩ := step_input_suffix ht
  exact ⟨t, taken, ht, htaken.symm⟩

/-- Settles O40: in both clauses the fetch finds the command at the head of the port, by the length its first word gives or
by the count of payload words owed. -/
theorem stepRunsDecodedCommand : Obligations.StepRunsDecodedCommand := by
  constructor
  · intro s ws rest i hp hin hl hd
    have hf : fetch s.pending s.input = .command i rest := by
      rw [hp, hin]
      exact fetchFirst_of_decode hl hd rest
    exact step_of_fetch_command hf
  · intro s p ws rest hp hn hl hin
    have hf : fetch s.pending s.input = .command (.drawstr p.x p.y (unpackChars p.len.toNat (p.payload ++ ws))) rest := by
      rw [hp, hin, fetch_of_need_pos hn]
      exact gatherPayload_complete ws p hn hl rest
    exact step_of_fetch_command hf

end Sys2Proof.Machine

/-! ## The state: what each command writes, and the statements of 10_state.md -/

namespace Sys2Proof.Machine

/-! ### The moves as functions of one coordinate (R140 to R143, R145) -/

/-- The row a move up leads to (R140). -/
def rowUp (y : Byte) : Byte := if y < 16 then y else y - 8
/-- The row a move down leads to (R141). -/
def rowDown (y : Byte) : Byte := if y > 48 then y else y + 8
/-- The column a move left leads to (R142). -/
def columnLeft (x : Byte) : Byte := if x < 16 then x else x - 8
/-- The column a move right leads to (R143). -/
def columnRight (x : Byte) : Byte := if x > 104 then x else x + 8

theorem moveUp_eq (s : State) : moveUp s = s.setPosY (rowUp s.posY) := by
  unfold moveUp rowUp
  split <;> rfl

theorem moveDown_eq (s : State) : moveDown s = s.setPosY (rowDown s.posY) := by
  unfold moveDown rowDown
  split <;> rfl

theorem moveLeft_eq (s : State) : moveLeft s = s.setPosX (columnLeft s.posX) := by
  unfold moveLeft columnLeft
  split <;> rfl

theorem moveRight_eq (s : State) : moveRight s = s.setPosX (columnRight s.posX) := by
  unfold moveRight columnRight
  split <;> rfl

/-- The column of the next counted step of the sweep, by the direction (R145). -/
def sweepColumn (d : Bit) (x : Byte) : Byte := if d = 0 then columnRight x else columnLeft x

theorem sweepTick_manual {s : State} (hm : s.mode ≠ 1) : sweepTick s = s :=
  if_neg hm

/-- In Automatic with `STEP < 14` a tick is a counted horizontal step (R145). -/
theorem sweepTick_counted {s : State} (hm : s.mode = 1) (hn : s.stepCount < 14) :
    sweepTick s = (s.setPosX (sweepColumn s.dir s.posX)).setStepCount (s.stepCount + 1) := by
  simp only [sweepTick, if_pos hm, if_pos hn, moveRight_eq, moveLeft_eq, sweepColumn]
  split <;> rfl

/-- In Automatic with `STEP >= 14` a tick reverses the sweep and moves down (R145). -/
theorem sweepTick_reversal {s : State} (hm : s.mode = 1) (hn : ¬s.stepCount < 14) :
    sweepTick s = ((s.setDir (1 - s.dir)).setStepCount 0).setPosY (rowDown s.posY) := by
  simp only [sweepTick, if_pos hm, if_neg hn, moveDown_eq]
  rfl

/-- Only in Automatic does a tick do anything (R145). -/
theorem mode_of_sweepTick_ne {s : State} (h : sweepTick s ≠ s) : s.mode = 1 := by
  by_contra hm
  exact h (sweepTick_manual hm)

/-- A tick writes at most the position, `DIR` and `STEP` (R145). -/
theorem sweepTick_frame (s : State) :
    ∃ x y d n, sweepTick s = (((s.setPosX x).setPosY y).setDir d).setStepCount n := by
  by_cases hm : s.mode = 1
  · by_cases hn : s.stepCount < 14
    · exact ⟨sweepColumn s.dir s.posX, s.posY, s.dir, s.stepCount + 1, sweepTick_counted hm hn⟩
    · exact ⟨s.posX, rowDown s.posY, 1 - s.dir, 0, sweepTick_reversal hm hn⟩
  · exact ⟨s.posX, s.posY, s.dir, s.stepCount, sweepTick_manual hm⟩

/-- The registers after a tick are functions of the registers before it (R145). -/
theorem sameRobot_sweepTick {s t : State} (h : SameRobot s t) : SameRobot (sweepTick s) (sweepTick t) := by
  have ⟨hx, hy, hpx, hpy, hd, hn, hm⟩ := h
  by_cases hauto : s.mode = 1
  · by_cases hcount : s.stepCount < 14
    · rw [sweepTick_counted hauto hcount, sweepTick_counted (hm ▸ hauto) (hn ▸ hcount)]
      exact ⟨congrArg₂ sweepColumn hd hx, hy, hpx, hpy, hd, congrArg (· + 1) hn, hm⟩
    · rw [sweepTick_reversal hauto hcount, sweepTick_reversal (hm ▸ hauto) (hn ▸ hcount)]
      exact ⟨hx, congrArg rowDown hy, hpx, hpy, congrArg (1 - ·) hd, rfl, hm⟩
  · rw [sweepTick_manual hauto, sweepTick_manual (hm ▸ hauto)]
    exact h

/-! ### The picture as an operand (R53, R110, R112, R120 to R122, R132, R133) -/

/-- The new buffer `m` makes the pixels depend on the pixels alone. -/
def PixelsFromPixels (m : State → Memory) : Prop :=
  ∀ s t, SamePixels s t → SamePixels (s.setBuf (m s)) (t.setBuf (m t))

theorem Paints.pixelsFromPixels {g : State → State} {P : Nat → Nat → Option Bool} (hg : Paints g P) :
    PixelsFromPixels fun s => (g s).buf := by
  intro s t h a b
  rw [← hg.frame s, ← hg.frame t]
  cases hr : inRange a b with
  | true => rw [hg.pixel s a b hr, hg.pixel t a b hr, h a b]
  | false => rw [getPixel_out_of_range hr, getPixel_out_of_range hr]

theorem fillBuffer_pixelsFromPixels (v : Bool) : PixelsFromPixels fun s => (fillBuffer v s).buf := by
  intro s t _ a b
  rw [← fillBuffer_eq_setBuf, ← fillBuffer_eq_setBuf]
  cases hr : inRange a b with
  | true => rw [getPixel_fillBuffer v s hr, getPixel_fillBuffer v t hr]
  | false => rw [getPixel_out_of_range hr, getPixel_out_of_range hr]

/-! ### The effect of every command, said once (R39) -/

/-- The drawing commands and FILL: those R39 marks for the buffer in every state. -/
inductive Draws : Instr → Prop where
  | setpx (x y : Byte) (on : Bool) : Draws (.setpx x y on)
  | fill (v : Bool) : Draws (.fill v)
  | drawsq (x y side : Byte) : Draws (.drawsq x y side)
  | erasesq (x y side : Byte) : Draws (.erasesq x y side)
  | drawx (x y : Byte) : Draws (.drawx x y)
  | drawch (x y ch : Byte) : Draws (.drawch x y ch)
  | drawstr (x y : Byte) (chars : List Byte) : Draws (.drawstr x y chars)

/-- The commands that respond with a byte (R92). -/
inductive Responds : Instr → Prop where
  | getpx (x y : Byte) : Responds (.getpx x y)
  | rdreg (r : Byte) : Responds (.rdreg r)

/-- `Effect i f`: command `i` takes each state to its image under `f`, written as updates of the fields that `i` writes, with
the new registers as functions of registers. `exec_effect` ties it to `exec`. -/
inductive Effect : Instr → (State → State) → Prop where
  | draw {i : Instr} (hi : Draws i) (m : State → Memory) (hm : PixelsFromPixels m) : Effect i fun s => s.setBuf (m s)
  | respond {i : Instr} (hi : Responds i) (v : State → Byte) : Effect i fun s => s.emit (.rsp (v s))
  | present (f : State → Frame) : Effect .present fun s => s.emit (.frame (f s))
  | render (m : State → Memory) (f : State → Frame) : Effect .render fun s =>
      if s.posChanged then ((s.setBuf (m s)).setPrev s.posX s.posY).emit (.frame (f s)) else s
  | vertical {i : Instr} (hi : i = .mvup ∨ i = .mvdown) (y : Byte → Byte) : Effect i fun s => s.setPosY (y s.posY)
  | horizontal {i : Instr} (hi : i = .mvleft ∨ i = .mvright) (x : Byte → Byte) : Effect i fun s => s.setPosX (x s.posX)
  | cmdVertical {i : Instr} (hi : i = .cmdUp ∨ i = .cmdDown) (y : Byte → Byte) :
      Effect i fun s => (s.setMode 0).setPosY (y s.posY)
  | cmdHorizontal {i : Instr} (hi : i = .cmdLeft ∨ i = .cmdRight) (x : Byte → Byte) :
      Effect i fun s => (s.setMode 0).setPosX (x s.posX)
  | setmode (b : Bool) : Effect (.setmode b) fun s => s.setMode (BitVec.ofBool b)
  | cmdAuto : Effect .cmdAuto fun s => s.setMode 1
  | tick : Effect .tick sweepTick

/-- The redraw as updates of the fields it writes (R156). -/
theorem redraw_eq_updates (s : State) :
    redraw s = ((s.setBuf (redraw s).buf).setPrev s.posX s.posY).emit
      (.frame (s.setBuf (redraw s).buf).currentFrame) := by
  have hp := (paints_redraw s.prevX.toNat s.prevY.toNat s.posX.toNat s.posY.toNat).frame s
  rw [redraw_eq, hp]
  rfl

/-- A command whose meaning paints is a drawing command with the effect of one. -/
theorem effect_of_paints {i : Instr} {g : State → State} {P : Nat → Nat → Option Bool} (hi : Draws i) (hg : Paints g P)
    (he : ∀ s, exec i s = .next (g s)) : ∃ f, Effect i f ∧ ∀ s, exec i s = .next (f s) :=
  ⟨_, .draw hi _ hg.pixelsFromPixels, fun s => (he s).trans (hg.answers s)⟩

/-- Every command completes, with the effect listed for it (R39, R170). -/
theorem exec_effect (i : Instr) : ∃ f, Effect i f ∧ ∀ s, exec i s = .next (f s) := by
  cases i with
  | setpx x y on => exact effect_of_paints (.setpx x y on) (paints_setPixel _ _ _) fun _ => rfl
  | getpx x y =>
    exact ⟨_, .respond (.getpx x y) fun s => if getPixel x.toNat y.toNat s then 0x01 else 0x00, fun _ => rfl⟩
  | fill v =>
    exact ⟨_, .draw (.fill v) _ (fillBuffer_pixelsFromPixels v),
      fun s => congrArg Host.Outcome.next (fillBuffer_eq_setBuf v s)⟩
  | drawsq x y side => exact effect_of_paints (.drawsq x y side) (paints_paintSquare _ _ _ _) fun _ => rfl
  | erasesq x y side => exact effect_of_paints (.erasesq x y side) (paints_paintSquare _ _ _ _) fun _ => rfl
  | drawx x y => exact effect_of_paints (.drawx x y) (paints_paintCross _ _) fun _ => rfl
  | drawch x y ch => exact effect_of_paints (.drawch x y ch) (paints_drawChar _ _ _ _) fun _ => rfl
  | drawstr x y chars => exact effect_of_paints (.drawstr x y chars) (paints_drawChars _ _ _ _) fun _ => rfl
  | present => exact ⟨_, .present State.currentFrame, fun _ => rfl⟩
  | mvup => exact ⟨_, .vertical (.inl rfl) rowUp, fun s => congrArg _ (moveUp_eq s)⟩
  | mvdown => exact ⟨_, .vertical (.inr rfl) rowDown, fun s => congrArg _ (moveDown_eq s)⟩
  | mvleft => exact ⟨_, .horizontal (.inl rfl) columnLeft, fun s => congrArg _ (moveLeft_eq s)⟩
  | mvright => exact ⟨_, .horizontal (.inr rfl) columnRight, fun s => congrArg _ (moveRight_eq s)⟩
  | setmode b => exact ⟨_, .setmode b, fun _ => rfl⟩
  | tick => exact ⟨_, .tick, fun _ => rfl⟩
  | render =>
    refine ⟨_, .render (fun s => (redraw s).buf) (fun s => (s.setBuf (redraw s).buf).currentFrame), fun s => ?_⟩
    rw [← redraw_eq_updates]
    rfl
  | cmdUp => exact ⟨_, .cmdVertical (.inl rfl) rowUp, fun s => congrArg _ (moveUp_eq (s.setMode 0))⟩
  | cmdLeft => exact ⟨_, .cmdHorizontal (.inl rfl) columnLeft, fun s => congrArg _ (moveLeft_eq (s.setMode 0))⟩
  | cmdRight => exact ⟨_, .cmdHorizontal (.inr rfl) columnRight, fun s => congrArg _ (moveRight_eq (s.setMode 0))⟩
  | cmdDown => exact ⟨_, .cmdVertical (.inr rfl) rowDown, fun s => congrArg _ (moveDown_eq (s.setMode 0))⟩
  | cmdAuto => exact ⟨_, .cmdAuto, fun _ => rfl⟩
  | rdreg r => exact ⟨_, .respond (.rdreg r) (readReg r), fun _ => rfl⟩

/-! ### What every command leaves unchanged, field by field (R39) -/

/-- RENDER of a changed position, the only command that writes `PREV`, and the only one but the drawing commands that writes
the buffer (R156). -/
def Redraws (i : Instr) (s : State) : Prop := i = .render ∧ s.posChanged = true

namespace Effect

variable {i : Instr} {f : State → State}

theorem pending_input_resets (hf : Effect i f) (s : State) :
    (f s).pending = s.pending ∧ (f s).input = s.input ∧ (f s).resets = s.resets := by
  cases hf with
  | render => dsimp only; split <;> exact ⟨rfl, rfl, rfl⟩
  | tick => obtain ⟨x, y, d, n, e⟩ := sweepTick_frame s; rw [e]; exact ⟨rfl, rfl, rfl⟩
  | _ => exact ⟨rfl, rfl, rfl⟩

/-- `POS_X` is written by the horizontal moves and by TICK in Automatic (R21). -/
theorem of_posX_ne (hf : Effect i f) {s : State} (h : (f s).posX ≠ s.posX) :
    i = .mvleft ∨ i = .mvright ∨ i = .cmdLeft ∨ i = .cmdRight ∨ i = .tick ∧ s.mode = 1 := by
  cases hf with
  | horizontal hi => obtain hi | hi := hi <;> simp [hi]
  | cmdHorizontal hi => obtain hi | hi := hi <;> simp [hi]
  | tick => simp [mode_of_sweepTick_ne fun e => h (by rw [e])]
  | render => dsimp only at h; split at h <;> exact absurd rfl h
  | _ => exact absurd rfl h

/-- `POS_Y` is written by the vertical moves and by TICK in Automatic (R22). -/
theorem of_posY_ne (hf : Effect i f) {s : State} (h : (f s).posY ≠ s.posY) :
    i = .mvup ∨ i = .mvdown ∨ i = .cmdUp ∨ i = .cmdDown ∨ i = .tick ∧ s.mode = 1 := by
  cases hf with
  | vertical hi => obtain hi | hi := hi <;> simp [hi]
  | cmdVertical hi => obtain hi | hi := hi <;> simp [hi]
  | tick => simp [mode_of_sweepTick_ne fun e => h (by rw [e])]
  | render => dsimp only at h; split at h <;> exact absurd rfl h
  | _ => exact absurd rfl h

/-- `PREV` is written by RENDER of a changed position (R23). -/
theorem of_prev_ne (hf : Effect i f) {s : State} (h : (f s).prevX ≠ s.prevX ∨ (f s).prevY ≠ s.prevY) :
    Redraws i s := by
  cases hf with
  | render =>
    dsimp only at h
    split at h
    case isTrue hc => exact ⟨rfl, hc⟩
    case isFalse => simp at h
  | tick => obtain ⟨x, y, d, n, e⟩ := sweepTick_frame s; simp [e] at h
  | _ => simp at h

/-- `DIR` and `STEP` are written by no command but TICK (R24, R25). -/
theorem dir_stepCount_of_ne_tick (hf : Effect i f) (hi : i ≠ .tick) (s : State) :
    (f s).dir = s.dir ∧ (f s).stepCount = s.stepCount := by
  cases hf with
  | tick => exact absurd rfl hi
  | render => dsimp only; split <;> exact ⟨rfl, rfl⟩
  | _ => exact ⟨rfl, rfl⟩

/-- `DIR` and `STEP` are written by TICK in Automatic (R24, R25). -/
theorem of_sweep_ne (hf : Effect i f) {s : State} (h : (f s).dir ≠ s.dir ∨ (f s).stepCount ≠ s.stepCount) :
    i = .tick ∧ s.mode = 1 := by
  by_cases hi : i = .tick
  · subst hi
    cases hf with
    | tick => exact ⟨rfl, mode_of_sweepTick_ne fun e => by simp [e] at h⟩
    | _ => simp at h
  · simp [hf.dir_stepCount_of_ne_tick hi s] at h

/-- `MODE` is written by SETMODE, by the directional CMDs and by CMD auto, each with its own value (R26). -/
theorem of_mode_ne (hf : Effect i f) {s : State} (h : (f s).mode ≠ s.mode) :
    (∃ b, i = .setmode b ∧ (f s).mode = BitVec.ofBool b) ∨
      (i ∈ [.cmdUp, .cmdDown, .cmdLeft, .cmdRight] ∧ (f s).mode = 0) ∨ (i = .cmdAuto ∧ (f s).mode = 1) := by
  cases hf with
  | setmode b => exact .inl ⟨b, rfl, rfl⟩
  | cmdVertical hi => obtain hi | hi := hi <;> simp [hi]
  | cmdHorizontal hi => obtain hi | hi := hi <;> simp [hi]
  | cmdAuto => exact .inr (.inr ⟨rfl, rfl⟩)
  | tick => obtain ⟨x, y, d, n, e⟩ := sweepTick_frame s; simp [e] at h
  | render => dsimp only at h; split at h <;> exact absurd rfl h
  | _ => exact absurd rfl h

/-- The buffer is written by the drawing commands and by RENDER of a changed position (R34). -/
theorem of_buf_ne (hf : Effect i f) {s : State} (h : (f s).buf ≠ s.buf) : Draws i ∨ Redraws i s := by
  cases hf with
  | draw hi => exact .inl hi
  | render =>
    dsimp only at h
    split at h
    case isTrue hc => exact .inr ⟨rfl, hc⟩
    case isFalse => exact absurd rfl h
  | tick => obtain ⟨x, y, d, n, e⟩ := sweepTick_frame s; simp [e] at h
  | _ => exact absurd rfl h

/-- A command emits nothing, or one response, or one frame (R92, R113, R194). -/
theorem out_cases (hf : Effect i f) (s : State) :
    (f s).out = s.out ∨ (Responds i ∧ ∃ v, (f s).out = s.out ++ [.rsp v]) ∨
      ((i = .present ∨ Redraws i s) ∧ ∃ fr, (f s).out = s.out ++ [.frame fr]) := by
  cases hf with
  | respond hi v => exact .inr (.inl ⟨hi, v s, rfl⟩)
  | present fr => exact .inr (.inr ⟨.inl rfl, fr s, rfl⟩)
  | render m fr =>
    dsimp only
    split
    case isTrue hc => exact .inr (.inr ⟨.inr ⟨rfl, hc⟩, fr s, rfl⟩)
    case isFalse => exact .inl rfl
  | tick => obtain ⟨x, y, d, n, e⟩ := sweepTick_frame s; simp [e]
  | _ => exact .inl rfl

/-- The registers after a command are functions of the registers before it (R21 to R26). -/
theorem sameRobot (hf : Effect i f) {s t : State} (h : SameRobot s t) : SameRobot (f s) (f t) := by
  have ⟨hx, hy, hpx, hpy, hd, hn, hm⟩ := h
  cases hf with
  | vertical _ y => exact ⟨hx, congrArg y hy, hpx, hpy, hd, hn, hm⟩
  | horizontal _ x => exact ⟨congrArg x hx, hy, hpx, hpy, hd, hn, hm⟩
  | cmdVertical _ y => exact ⟨hx, congrArg y hy, hpx, hpy, hd, hn, rfl⟩
  | cmdHorizontal _ x => exact ⟨congrArg x hx, hy, hpx, hpy, hd, hn, rfl⟩
  | setmode => exact ⟨hx, hy, hpx, hpy, hd, hn, rfl⟩
  | cmdAuto => exact ⟨hx, hy, hpx, hpy, hd, hn, rfl⟩
  | render =>
    have hc : s.posChanged = t.posChanged := by simp only [State.posChanged, hx, hy, hpx, hpy]
    dsimp only
    rw [hc]
    split
    · exact ⟨hx, hy, hx, hy, hd, hn, hm⟩
    · exact h
  | tick => exact sameRobot_sweepTick h
  | _ => exact h

/-- Whatever the registers, the pixels after a command that is not RENDER come from the pixels before it (R34). -/
theorem samePixels (hf : Effect i f) (hi : i ≠ .render) {s t : State} (h : SamePixels s t) : SamePixels (f s) (f t) := by
  cases hf with
  | draw _ m hm => exact hm s t h
  | render => exact absurd rfl hi
  | tick =>
    obtain ⟨x, y, d, n, hs⟩ := sweepTick_frame s
    obtain ⟨x', y', d', n', ht⟩ := sweepTick_frame t
    rw [hs, ht]
    exact h
  | _ => exact h

end Effect

/-! ### The sweep's counter (R25, R145) -/

/-- A tick flips `DIR` exactly when it reverses the sweep, and then `STEP` returns to 0; it does so in no other way. -/
theorem sweepTick_dir_stepCount (s : State) :
    ((sweepTick s).dir ≠ s.dir ↔ s.mode = 1 ∧ 14 ≤ s.stepCount.toNat) ∧
    ((sweepTick s).dir ≠ s.dir → (sweepTick s).stepCount = 0) ∧
    ((sweepTick s).stepCount = 0 → s.stepCount ≠ 0 → (sweepTick s).dir ≠ s.dir) := by
  by_cases hm : s.mode = 1
  · by_cases hn : s.stepCount < 14
    · have hlt : s.stepCount.toNat < 14 := hn
      have hsucc : s.stepCount + 1 ≠ 0 := by bv_omega
      rw [sweepTick_counted hm hn]
      exact ⟨⟨fun h => absurd rfl h, fun h => absurd hlt (Nat.not_lt.2 h.2)⟩, fun h => absurd rfl h,
        fun h0 => absurd h0 hsucc⟩
    · have hge : 14 ≤ s.stepCount.toNat := Nat.not_lt.1 hn
      have hflip : 1 - s.dir ≠ s.dir := by
        obtain hd | hd := BitVec.eq_zero_or_eq_one s.dir <;> rw [hd] <;> decide
      rw [sweepTick_reversal hm hn]
      exact ⟨⟨fun _ => ⟨hm, hge⟩, fun _ => hflip⟩, fun _ => rfl, fun _ _ => hflip⟩
  · rw [sweepTick_manual hm]
    exact ⟨⟨fun h => absurd rfl h, fun h => absurd h.1 hm⟩, fun h => absurd rfl h, fun h0 hne => absurd h0 hne⟩

/-! ### Two states with the same registers -/

/-- Commands agree on the registers and the port of two states that do. -/
theorem exec_agrees (i : Instr) {s₁ s₂ : State} (hr : SameRobot s₁ s₂) (hp : SamePort s₁ s₂) :
    ∃ t₁ t₂, exec i s₁ = .next t₁ ∧ exec i s₂ = .next t₂ ∧ SameRobot t₁ t₂ ∧ SamePort t₁ t₂ := by
  obtain ⟨f, hf, he⟩ := exec_effect i
  obtain ⟨hpend₁, hin₁, -⟩ := hf.pending_input_resets s₁
  obtain ⟨hpend₂, hin₂, -⟩ := hf.pending_input_resets s₂
  obtain ⟨hpend, hin⟩ := hp
  exact ⟨f s₁, f s₂, he s₁, he s₂, hf.sameRobot hr,
    hpend₁.trans (hpend.trans hpend₂.symm), hin₁.trans (hin.trans hin₂.symm)⟩

/-! ### Flags and `STATUS` (R29 to R31) -/

theorem indManual_eq_not_indAuto (s : State) : s.indManual = !s.indAuto := by
  unfold State.indManual State.indAuto
  obtain hm | hm := BitVec.eq_zero_or_eq_one s.mode <;> rw [hm] <;> rfl

/-- `STATUS` bit by bit (R31). -/
theorem getLsbD_status (s : State) (k : Nat) :
    s.status.getLsbD k =
      if k = 0 then s.indManual else if k = 1 then s.indAuto else if k = 2 then s.posChanged else false := by
  have e : s.status.getLsbD k = (0#5 ++ BitVec.ofBool s.posChanged ++ BitVec.ofBool s.indAuto ++
      BitVec.ofBool s.indManual).getLsbD k := rfl
  simp only [e, BitVec.getLsbD_append]
  match k with
  | 0 | 1 | 2 => simp
  | k + 3 => simp

/-- The value of `STATUS` by the mode and by whether a redraw is due (R31). -/
theorem status_eq (s : State) :
    s.status = if s.indAuto then (if s.posChanged then 0x06 else 0x02) else (if s.posChanged then 0x05 else 0x01) := by
  rw [State.status, indManual_eq_not_indAuto]
  cases s.indAuto <;> cases s.posChanged <;> rfl

/-! ### The state after reset (R38) -/

section
variable (p : ResetParams) (k : Nat) (input : List PortEvent) (out : List Output)

theorem posChanged_resetWith : (State.resetWith p k input out).posChanged = false := by
  simp [State.posChanged, State.resetWith]

theorem status_resetWith :
    (State.resetWith p k input out).status = if p.initMode = 0 then 0x01 else 0x02 := by
  rw [status_eq, posChanged_resetWith]
  obtain hm | hm := BitVec.eq_zero_or_eq_one p.initMode <;> simp [State.indAuto, State.resetWith, hm]

/-- A reset leaves one robot, whatever the ports hold and however many resets came before (R190). -/
theorem sameRobot_resetWith (k' : Nat) (input' : List PortEvent) (out' : List Output) :
    SameRobot (State.resetWith p k input out) (State.resetWith p k' input' out') :=
  ⟨rfl, rfl, rfl, rfl, rfl, rfl, rfl⟩

/-- No byte has been written since the reset. -/
theorem bufByte_resetWith (i : Nat) : (State.resetWith p k input out).bufByte i = Config.resetByte k i := rfl

end

theorem resetWith_inv {p : ResetParams} (hp : p.legal = true) (k : Nat) (input : List PortEvent) (out : List Output) :
    (State.resetWith p k input out).Inv := by
  obtain ⟨hx, hy⟩ : Config.latticeX p.initX = true ∧ Config.latticeY p.initY = true := by
    simpa [ResetParams.legal] using hp
  exact ⟨by simp [State.onLattice, State.resetWith, hx, hy], Nat.zero_le 14, Memory.wf_nil, rfl⟩

/-! ### The obligations -/

/-- Settles O56: the fetch sees the port alone, a reset gives one robot whatever ran, and a command's registers are functions
of the registers. -/
theorem bufferNeverInfluencesRobot : Obligations.BufferNeverInfluencesRobot := by
  rintro s₁ s₂ hr ⟨hp, hi⟩
  simp only [step, hp, hi]
  cases fetch s₂.pending s₂.input with
  | idle => exact ⟨s₁, s₂, rfl, rfl, hr, hp, hi⟩
  | waiting p => exact ⟨_, _, rfl, rfl, hr, rfl, rfl⟩
  | reset rest => exact ⟨_, _, rfl, rfl, sameRobot_resetWith _ _ _ _ _ _ _, rfl, rfl⟩
  | noCommand r rest => exact ⟨_, _, execNoCommand_eq r _, execNoCommand_eq r _, hr, rfl, rfl⟩
  | command i rest => exact exec_agrees i (s₁ := s₁.setPort none rest) (s₂ := s₂.setPort none rest) hr ⟨rfl, rfl⟩
  | cutCommand i taken rest =>
    obtain ⟨f, -, he⟩ := exec_effect i
    simp only [he, cutShort]
    exact ⟨_, _, rfl, rfl, sameRobot_resetWith _ _ _ _ _ _ _, rfl, rfl⟩

/-- Settles O25: no command but TICK writes `DIR` or `STEP`, and a tick counts on or reverses. -/
theorem stepClearsExactlyAtReversal : Obligations.StepClearsExactlyAtReversal := by
  intro i s
  by_cases hi : i = .tick
  · subst hi
    obtain ⟨hflip, hzero, hback⟩ := sweepTick_dir_stepCount s
    exact ⟨sweepTick s, rfl, by simpa using hflip, hzero, hback⟩
  · obtain ⟨f, hf, he⟩ := exec_effect i
    obtain ⟨hd, hn⟩ := hf.dir_stepCount_of_ne_tick hi s
    exact ⟨f s, he s, by simp [hd, hi], fun h => absurd hd h, fun h0 hs => absurd (hn.symm.trans h0) hs⟩

/-- Settles O54: the matrix read off the effect of each command, a column at a time. -/
theorem writeMatrix : Obligations.WriteMatrix := by
  intro i s
  obtain ⟨f, hf, he⟩ := exec_effect i
  obtain ⟨hpending, hinput, hresets⟩ := hf.pending_input_resets s
  refine ⟨f s, he s, hpending, hinput, hresets, hf.of_posX_ne, hf.of_posY_ne, hf.of_prev_ne, hf.of_sweep_ne,
    fun h => ?_, fun h => ?_, ?_⟩
  · exact (hf.of_mode_ne h).imp_left fun ⟨b, hb, _⟩ => ⟨b, hb⟩
  · obtain hd | hr := hf.of_buf_ne h
    · cases hd <;> simp
    · simp [show i = .render ∧ s.posChanged = true from hr]
  · obtain ho | ⟨hr, ho⟩ | ho := hf.out_cases s
    · exact .inl ho
    · exact .inr (.inl ⟨by cases hr <;> simp, ho⟩)
    · exact .inr (.inr ho)

/-- Settles O55: a step that changes `MODE` is a reset, or runs a command that writes it. -/
theorem modeChangesOnlyByCommand : Obligations.ModeChangesOnlyByCommand := by
  intro s t h hne
  obtain ⟨-, rfl⟩ | ⟨p, -, rfl⟩ | ⟨rest, hfetch, rfl⟩ | ⟨r, rest, -, rfl⟩ | ⟨i, rest, hfetch, ht⟩ |
    ⟨i, taken, rest, u, hfetch, -, rfl⟩ := step_cases h
  · exact absurd rfl hne
  · exact absurd rfl hne
  · exact .inr ⟨rest, .inl hfetch, rfl⟩
  · exact absurd rfl hne
  · refine .inl ⟨i, rest, hfetch, ?_⟩
    obtain ⟨f, hf, he⟩ := exec_effect i
    cases ht.symm.trans (he _)
    obtain ⟨b, rfl, hb⟩ | ⟨hi, h0⟩ | ⟨rfl, h1⟩ := hf.of_mode_ne hne
    · rw [hb]
      cases b <;> simp
    · rw [h0]
      simp only [List.mem_cons, List.not_mem_nil, or_false] at hi
      obtain rfl | rfl | rfl | rfl := hi <;> simp
    · rw [h1]
      simp
  · exact .inr ⟨rest, .inr ⟨i, taken, hfetch⟩, rfl⟩

/-- Settles O57: a drawing command makes pixels from pixels, and no other command but RENDER writes the buffer. -/
theorem robotReachesPictureOnlyByRender : Obligations.RobotReachesPictureOnlyByRender := by
  intro i s₁ s₂ hi h
  obtain ⟨f, hf, he⟩ := exec_effect i
  exact ⟨f s₁, f s₂, he s₁, he s₂, hf.samePixels hi h⟩

/-- Settles O35: the flags are their definitions, the rest is `STATUS` by its bits and by its value. -/
theorem statusIsComputedFromRegisters : Obligations.StatusIsComputedFromRegisters := by
  intro s
  refine ⟨rfl, rfl, indManual_eq_not_indAuto s, ?_, getLsbD_status s 0, getLsbD_status s 1, getLsbD_status s 2, ?_, ?_⟩
  · simp only [State.posChanged, bne, beq_eq_decide, Bool.decide_or, decide_not]
  · intro k hk
    rw [getLsbD_status, if_neg (by omega), if_neg (by omega), if_neg (by omega)]
  · rw [status_eq]
    cases s.indAuto <;> cases s.posChanged <;> decide

/-- Settles O48: the registers are the parameters, and equal positions leave no redraw due. -/
theorem resetValues : Obligations.ResetValues := fun p k input out =>
  ⟨rfl, rfl, rfl, rfl, rfl, rfl, rfl, rfl, rfl, posChanged_resetWith p k input out, rfl, rfl,
    status_resetWith p k input out⟩

/-- Settles O49: the reset state is the one of R38 for the model's parameters. -/
theorem resetStateIsDefault : Obligations.ResetStateIsDefault :=
  ⟨rfl, rfl, rfl, rfl, rfl, rfl, rfl, status_resetWith Config.resetParams 0 [] [], rfl,
    bufByte_resetWith Config.resetParams 0 [] [], rfl, rfl⟩

/-- Settles O52: the model's own reset parameters are legal. -/
theorem resetMeetsInvariant : Obligations.ResetMeetsInvariant :=
  ⟨resetWith_inv (by decide) 0 [] [], fun _ k input out hp => resetWith_inv hp k input out⟩

end Sys2Proof.Machine

/-! ## The pixel address encoder, and the statements of 20_memory.md -/

namespace Sys2Proof.Machine

/-! ### The encoder as arithmetic and as wiring (R50, R51, R56) -/

/-- Index and bit give the coordinates back: a row in range has a page below 8 (R56). -/
theorem pixel_eq_of_index_bit (x y : Nat) (hy : y < 64) :
    x = pixelIndex x y / 8 ∧ y = 8 * (pixelIndex x y % 8) + pixelBit y := by
  simp only [pixelIndex, pixelBit, Config.pages_eq]
  omega

/-- Bits put side by side are the upper ones shifted up by the width of the lower ones. -/
theorem toNat_append_eq_add {m n : Nat} (hi : BitVec m) (lo : BitVec n) :
    (hi ++ lo).toNat = hi.toNat * 2 ^ n + lo.toNat := by
  rw [BitVec.toNat_append, ← Nat.shiftLeft_add_eq_or_of_lt lo.isLt, Nat.shiftLeft_eq]

/-- The wires `x[6:0]` carry the whole of an in-range column (R51). -/
theorem toNat_columnWires {x : Byte} (hx : x.toNat < 128) : (x.extractLsb' 0 7).toNat = x.toNat := by
  rw [BitVec.extractLsb'_toNat, Nat.shiftRight_zero]
  exact Nat.mod_eq_of_lt hx

/-- The wires `y[5:3]` carry the page of an in-range row (R51). -/
theorem toNat_pageWires {y : Byte} (hy : y.toNat < 64) : (y.extractLsb' 3 3).toNat = y.toNat / 8 := by
  rw [BitVec.extractLsb'_toNat, Nat.shiftRight_eq_div_pow]
  omega

/-- The wires `y[2:0]` carry the bit position of any row (R51). -/
theorem toNat_bitWires (y : Byte) : (y.extractLsb' 0 3).toNat = pixelBit y.toNat :=
  BitVec.extractLsb'_toNat ..

/-! ### A pixel written and read back (R53, R54) -/

theorem exec_setpx (x y : Byte) (on : Bool) (s : State) :
    exec (.setpx x y on) s = .next (setPixel x.toNat y.toNat on s) := rfl

theorem exec_getpx (x y : Byte) (s : State) :
    exec (.getpx x y) s = .next (s.emit (.rsp (if getPixel x.toNat y.toNat s then 0x01 else 0x00))) := rfl

theorem getPixel_setPixel_same {x y : Nat} (h : inRange x y = true) (on : Bool) (s : State) :
    getPixel x y (setPixel x y on s) = on := by
  rw [getPixel_setPixel, if_pos ⟨rfl, rfl, h⟩]

/-! ### The obligations -/

/-- Settles O15: the encoder and R56's inverse undo each other; so a pixel with the index and bit is the inverse's. -/
theorem onePixelOneBit : Obligations.OnePixelOneBit := by
  constructor
  · intro x y hx hy
    exact ⟨pixelIndex_lt ((inRange_iff x y).2 ⟨hx, hy⟩), pixelBit_lt y, pixel_eq_of_index_bit x y hy⟩
  · intro i k hi hk
    obtain ⟨hr, hindex, hbit⟩ := pixelIndex_inverse hi hk
    obtain ⟨hx, hy⟩ := (inRange_iff _ _).1 hr
    refine ⟨(i / 8, 8 * (i % 8) + k), ⟨hx, hy, hindex, hbit⟩, ?_⟩
    rintro ⟨a, b⟩ ⟨-, hb, rfl, rfl⟩
    exact Prod.ext_iff.2 (pixel_eq_of_index_bit a b hb)

/-- Settles O14: `y[5:3]` is the page, of three bits, so `x[6:0]` above it adds eight times the column. -/
theorem encoderIsWiring : Obligations.EncoderIsWiring := by
  intro x y hx hy
  refine ⟨?_, (toNat_bitWires y).symm⟩
  rw [toNat_append_eq_add, toNat_columnWires hx, toNat_pageWires hy]
  exact Nat.add_comm _ _

/-- Settles O16: the response is the pixel read after it was written. -/
theorem setThenGetReturnsValue : Obligations.SetThenGetReturnsValue := by
  intro x y on s hx hy
  have hread := getPixel_setPixel_same ((inRange_iff x.toNat y.toNat).2 ⟨hx, hy⟩) on s
  exact ⟨_, _, exec_setpx x y on s, exec_getpx x y _, by rw [hread]⟩

end Sys2Proof.Machine

/-! ## Encoding and the command stream, and the statements of 30_encoding.md -/

namespace Sys2Proof

/-! ### A word is its four fields (R80, R90) -/

theorem headerWord_fields (w : Word) : headerWord (opField w) (xField w) (yField w) (cField w) = w := by
  apply BitVec.eq_of_getLsbD_eq
  intro i hi
  simp only [headerWord, opField, xField, yField, cField, BitVec.getLsbD_append, BitVec.getLsbD_extractLsb']
  split_ifs
  all_goals
    rw [decide_eq_true (by omega), Bool.true_and]
    congr 1
    omega

theorem getLsbD_cField_zero (w : Word) : (cField w).getLsbD 0 = w.getLsbD 0 := by
  simp [cField]

/-! ### The opcode map row by row, whatever the fields hold (R83, R84, R86) -/

section
variable (a b c : Byte)

theorem decodeFirst_setpx : decodeFirst (headerWord 0x01 a b c) = .command (.setpx a b (c.getLsbD 0)) := by
  simp [decodeFirst]
theorem decodeFirst_getpx : decodeFirst (headerWord 0x02 a b c) = .command (.getpx a b) := by
  simp [decodeFirst]
theorem decodeFirst_fill : decodeFirst (headerWord 0x03 a b c) = .command (.fill (c.getLsbD 0)) := by
  simp [decodeFirst]
theorem decodeFirst_drawsq : decodeFirst (headerWord 0x04 a b c) = .command (.drawsq a b c) := by
  simp [decodeFirst]
theorem decodeFirst_erasesq : decodeFirst (headerWord 0x05 a b c) = .command (.erasesq a b c) := by
  simp [decodeFirst]
theorem decodeFirst_drawx : decodeFirst (headerWord 0x06 a b c) = .command (.drawx a b) := by
  simp [decodeFirst]
theorem decodeFirst_drawch : decodeFirst (headerWord 0x07 a b c) = .command (.drawch a b c) := by
  simp [decodeFirst]
theorem decodeFirst_drawstr_empty : decodeFirst (headerWord 0x08 a b 0) = .command (.drawstr a b []) := by
  simp [decodeFirst]
theorem decodeFirst_present : decodeFirst (headerWord 0x09 a b c) = .command .present := by
  simp [decodeFirst]
theorem decodeFirst_mvup : decodeFirst (headerWord 0x10 a b c) = .command .mvup := by
  simp [decodeFirst]
theorem decodeFirst_mvdown : decodeFirst (headerWord 0x11 a b c) = .command .mvdown := by
  simp [decodeFirst]
theorem decodeFirst_mvleft : decodeFirst (headerWord 0x12 a b c) = .command .mvleft := by
  simp [decodeFirst]
theorem decodeFirst_mvright : decodeFirst (headerWord 0x13 a b c) = .command .mvright := by
  simp [decodeFirst]
theorem decodeFirst_setmode : decodeFirst (headerWord 0x14 a b c) = .command (.setmode (c.getLsbD 0)) := by
  simp [decodeFirst]
theorem decodeFirst_tick : decodeFirst (headerWord 0x15 a b c) = .command .tick := by
  simp [decodeFirst]
theorem decodeFirst_render : decodeFirst (headerWord 0x16 a b c) = .command .render := by
  simp [decodeFirst]
theorem decodeFirst_cmd : decodeFirst (headerWord 0x20 a b c) = decodeCmd c := by
  simp [decodeFirst]
theorem decodeFirst_rdreg : decodeFirst (headerWord 0x30 a b c) = .command (.rdreg c) := by
  simp [decodeFirst]

end

/-- A DRAWSTR of nonzero length is the header of its payload (R83, R89). -/
theorem decodeFirst_drawstr_header (x y : Byte) {len : Byte} (h : len ≠ 0) :
    decodeFirst (headerWord 0x08 x y len) = .stringHeader x y len :=
  decodeFirst_eq_stringHeader_iff.2 (by simpa using h)

/-! ### What each format reads (R81, R86) -/

/-- Format N reads no field. -/
theorem decodeFirst_formatN {op : Byte} (h : op ∈ [0x09, 0x10, 0x11, 0x12, 0x13, 0x15, 0x16]) :
    ∃ i, ∀ a b c, decodeFirst (headerWord op a b c) = .command i := by
  simp only [List.mem_cons, List.not_mem_nil, or_false] at h
  obtain rfl | rfl | rfl | rfl | rfl | rfl | rfl := h
  exacts [⟨_, decodeFirst_present⟩, ⟨_, decodeFirst_mvup⟩, ⟨_, decodeFirst_mvdown⟩, ⟨_, decodeFirst_mvleft⟩,
    ⟨_, decodeFirst_mvright⟩, ⟨_, decodeFirst_tick⟩, ⟨_, decodeFirst_render⟩]

/-- Format B reads bit 0 of `c`. -/
theorem decodeFirst_formatB {op : Byte} (h : op ∈ [0x03, 0x14]) :
    ∃ f : Bool → Instr, ∀ a b c, decodeFirst (headerWord op a b c) = .command (f (c.getLsbD 0)) := by
  simp only [List.mem_cons, List.not_mem_nil, or_false] at h
  obtain rfl | rfl := h
  exacts [⟨.fill, decodeFirst_fill⟩, ⟨.setmode, decodeFirst_setmode⟩]

/-- Format P reads `x` and `y`. -/
theorem decodeFirst_formatP {op : Byte} (h : op ∈ [0x02, 0x06]) :
    ∃ f : Byte → Byte → Instr, ∀ a b c, decodeFirst (headerWord op a b c) = .command (f a b) := by
  simp only [List.mem_cons, List.not_mem_nil, or_false] at h
  obtain rfl | rfl := h
  exacts [⟨.getpx, decodeFirst_getpx⟩, ⟨.drawx, decodeFirst_drawx⟩]

/-- Format I reads `c`. -/
theorem decodeFirst_formatI {op : Byte} (h : op ∈ [0x20, 0x30]) :
    ∃ f : Byte → FirstWord, ∀ a b c, decodeFirst (headerWord op a b c) = f c := by
  simp only [List.mem_cons, List.not_mem_nil, or_false] at h
  obtain rfl | rfl := h
  exacts [⟨decodeCmd, decodeFirst_cmd⟩, ⟨fun c => .command (.rdreg c), decodeFirst_rdreg⟩]

/-! ### Decode and encode agree (R80 to R84, R87, R88) -/

/-- Every instruction but DRAWSTR is one word, which is the whole command. -/
theorem encode_one_word {i : Instr} (hi : ∀ x y chars, i ≠ .drawstr x y chars) :
    ∃ w, encode i = [w] ∧ decodeFirst w = .command i := by
  cases i with
  | drawstr x y chars => exact absurd rfl (hi x y chars)
  | setpx x y on => exact ⟨_, rfl, by rw [decodeFirst_setpx, flagByte_bit]⟩
  | getpx x y => exact ⟨_, rfl, decodeFirst_getpx x y 0⟩
  | fill value => exact ⟨_, rfl, by rw [decodeFirst_fill, flagByte_bit]⟩
  | drawsq x y side => exact ⟨_, rfl, decodeFirst_drawsq x y side⟩
  | erasesq x y side => exact ⟨_, rfl, decodeFirst_erasesq x y side⟩
  | drawx x y => exact ⟨_, rfl, decodeFirst_drawx x y 0⟩
  | drawch x y ch => exact ⟨_, rfl, decodeFirst_drawch x y ch⟩
  | present => exact ⟨_, rfl, decodeFirst_present 0 0 0⟩
  | mvup => exact ⟨_, rfl, decodeFirst_mvup 0 0 0⟩
  | mvdown => exact ⟨_, rfl, decodeFirst_mvdown 0 0 0⟩
  | mvleft => exact ⟨_, rfl, decodeFirst_mvleft 0 0 0⟩
  | mvright => exact ⟨_, rfl, decodeFirst_mvright 0 0 0⟩
  | setmode m => exact ⟨_, rfl, by rw [decodeFirst_setmode, flagByte_bit]⟩
  | tick => exact ⟨_, rfl, decodeFirst_tick 0 0 0⟩
  | render => exact ⟨_, rfl, decodeFirst_render 0 0 0⟩
  | cmdUp | cmdLeft | cmdRight | cmdDown | cmdAuto => exact ⟨_, rfl, decodeFirst_cmd 0 0 _⟩
  | rdreg r => exact ⟨_, rfl, decodeFirst_rdreg 0 0 r⟩

/-- The words of a string that fits its length field are fetched as its DRAWSTR (R87, R88). -/
theorem fetchFirst_encode_drawstr (x y : Byte) {chars : List Byte} (h : chars.length ≤ 255) (rest : List PortEvent) :
    fetchFirst ((encode (.drawstr x y chars)).map .word ++ rest) = .command (.drawstr x y chars) rest := by
  have hlen : (BitVec.ofNat 8 chars.length).toNat = chars.length := by
    rw [BitVec.toNat_ofNat]
    exact Nat.mod_eq_of_lt (by omega)
  by_cases hne : chars = []
  · subst hne
    exact fetchFirst_word_of_command (decodeFirst_drawstr_empty x y) rest
  · have hpos : 0 < chars.length := List.length_pos_iff.2 hne
    have hw := decodeFirst_drawstr_header x y (len := BitVec.ofNat 8 chars.length) fun h0 => by
      rw [h0] at hlen
      exact absurd hlen.symm hpos.ne'
    have hpay : (packChars chars).length = payloadWords (BitVec.ofNat 8 chars.length) := by
      rw [packChars_length, payloadWords, hlen]
    have hwhole := fetchFirst_whole_string hw hpay rest
    rwa [hlen, unpackChars_packChars] at hwhole

theorem fetchFirst_encode {i : Instr} (h : i.wf = true) (rest : List PortEvent) :
    fetchFirst ((encode i).map .word ++ rest) = .command i rest := by
  by_cases hi : ∀ x y chars, i ≠ .drawstr x y chars
  · obtain ⟨w, hw, hd⟩ := encode_one_word hi
    rw [hw]
    exact fetchFirst_word_of_command hd rest
  · push Not at hi
    obtain ⟨x, y, chars, rfl⟩ := hi
    exact fetchFirst_encode_drawstr x y (of_decide_eq_true h) rest

theorem decode_encode {i : Instr} (h : i.wf = true) : decode (encode i) = .ok i :=
  decode_eq_ok_iff.2 ⟨[], by simpa using fetchFirst_encode h []⟩

/-! ### What the decoder answers is well-formed (R82, R87) -/

/-- The only DRAWSTR that is one word has no characters. -/
theorem chars_eq_nil_of_decodeFirst {w : Word} {x y : Byte} {chars : List Byte}
    (h : decodeFirst w = .command (.drawstr x y chars)) : chars = [] := by
  unfold decodeFirst at h
  split at h
  case h_8 => split at h <;> cases h; rfl
  case h_17 => unfold decodeCmd at h; split at h <;> cases h
  all_goals cases h

theorem wf_of_decodeFirst {w : Word} {i : Instr} (h : decodeFirst w = .command i) : i.wf = true := by
  cases i with
  | drawstr x y chars => rw [chars_eq_nil_of_decodeFirst h]; rfl
  | _ => rfl

/-- A completed DRAWSTR has as many characters as its 8-bit length field says. -/
theorem PendingString.wf_command (p : PendingString) : p.command.wf = true := by
  have hlen : (unpackChars p.len.toNat p.payload).length ≤ 255 := by
    rw [unpackChars_length]
    exact Nat.le_of_lt_succ p.len.isLt
  exact decide_eq_true hlen

/-- The instruction that a fetch found, to be run to its end or cut short. -/
def Fetched.found : Fetched → Option Instr
  | .command i _ | .cutCommand i _ _ => some i
  | .idle | .waiting _ | .reset _ | .noCommand _ _ => none

theorem wf_of_gatherPayload_found {input : List PortEvent} {p : PendingString} {i : Instr}
    (h : (gatherPayload input p).found = some i) : i.wf = true := by
  induction input generalizing p with
  | nil => cases h
  | cons e rest ih =>
    cases e with
    | reset => cases h
    | word w =>
      simp only [gatherPayload] at h
      split at h
      · cases h; exact (p.push w).wf_command
      · exact ih h
    | cutWord w taken =>
      simp only [gatherPayload] at h
      split at h <;> cases h
      exact (p.push w).wf_command

theorem wf_of_fetchFirst_found {input : List PortEvent} {i : Instr} (h : (fetchFirst input).found = some i) :
    i.wf = true := by
  unfold fetchFirst at h
  split at h
  · cases h
  · cases h
  · split at h
    next hd => cases h; exact wf_of_decodeFirst hd
    next => exact wf_of_gatherPayload_found h
    next => cases h
  · split at h
    next hd => cases h; exact wf_of_decodeFirst hd
    all_goals cases h

theorem wf_of_fetch_found {pending : Option PendingString} {input : List PortEvent} {i : Instr}
    (h : (fetch pending input).found = some i) : i.wf = true := by
  unfold fetch at h
  split at h
  · exact wf_of_fetchFirst_found h
  · split at h
    · exact wf_of_fetchFirst_found h
    · exact wf_of_gatherPayload_found h

/-! ### The obligations on words -/

/-- Settles O36: one word decodes by its row of the opcode map; a string's payload unpacks to the characters it packs. -/
theorem fetchOfEncodeIsInstruction : Obligations.FetchOfEncodeIsInstruction :=
  fun _ h => ⟨decode_encode h, fetchFirst_encode h⟩

/-- Settles O37: an instruction is found at one word, where a string has no characters, or as a completed payload. -/
theorem decodedInstructionsAreWellFormed : Obligations.DecodedInstructionsAreWellFormed := by
  constructor
  · intro ws i h
    obtain ⟨rest, hf⟩ := decode_eq_ok_iff.1 h
    exact wf_of_fetchFirst_found (congrArg Fetched.found hf)
  · rintro pending input rest i taken (hf | hf)
    all_goals exact wf_of_fetch_found (congrArg Fetched.found hf)

/-- Settles O38: write both words by their fields; the format's lemma names the fields the command is a function of. -/
theorem reservedFieldsAreIgnored : Obligations.ReservedFieldsAreIgnored := by
  intro w v hop
  have hw := headerWord_fields w
  have hv := headerWord_fields v
  rw [← hop] at hv
  rw [← getLsbD_cField_zero w, ← getLsbD_cField_zero v]
  refine ⟨fun hN => ?_, fun hB hflag => ?_, fun hP hx hy => ?_, fun hPB hx hy hflag => ?_, fun hI hc => ?_⟩
  · obtain ⟨i, hi⟩ := decodeFirst_formatN hN
    rw [← hw, ← hv, hi, hi]
  · obtain ⟨f, hf⟩ := decodeFirst_formatB hB
    rw [← hw, ← hv, hf, hf, hflag]
  · obtain ⟨f, hf⟩ := decodeFirst_formatP hP
    rw [← hw, ← hv, hf, hf, hx, hy]
  · rw [hPB] at hw hv
    rw [← hw, ← hv, decodeFirst_setpx, decodeFirst_setpx, hx, hy, hflag]
  · obtain ⟨f, hf⟩ := decodeFirst_formatI hI
    rw [← hw, ← hv, hf, hf, hc]

/-- Settles O39: the words are those the encoder writes for the instructions, and decoding an encoding gives it back. -/
theorem wordsDecodeAsTheTableSays : Obligations.WordsDecodeAsTheTableSays :=
  ⟨decode_encode (i := .setpx 5 10 true) rfl, decode_encode (i := .drawsq 8 8 8) rfl,
    decode_encode (i := .drawstr 118 0 [0x41, 0x42, 0x31]) rfl, decode_encode (i := .tick) rfl,
    decode_encode (i := .cmdAuto) rfl, decode_encode (i := .rdreg 7) rfl⟩

end Sys2Proof

namespace Sys2Proof

/-! ### The command stream, one event at a time (R89, R190) -/

theorem fetch_reset (pending : Option PendingString) (rest : List PortEvent) :
    fetch pending (.reset :: rest) = .reset rest := by
  unfold fetch
  split
  · rfl
  · split <;> rfl

/-- While payload is owed the decoder finds something, if only that it has to wait. -/
theorem gatherPayload_ne_idle (input : List PortEvent) (p : PendingString) : gatherPayload input p ≠ .idle := by
  induction input generalizing p with
  | nil => simp [gatherPayload]
  | cons e rest ih =>
    cases e with
    | reset => simp [gatherPayload]
    | word w =>
      simp only [gatherPayload]
      split
      · simp
      · exact ih _
    | cutWord w taken =>
      simp only [gatherPayload]
      split <;> simp

end Sys2Proof

namespace Sys2Proof.Machine

section
variable {s : State}

/-! ### Where a command word is expected, and where payload is (R89) -/

theorem fetch_of_owed_zero (h : s.payloadOwed = 0) (input : List PortEvent) :
    fetch s.pending input = fetchFirst input := by
  unfold State.payloadOwed at h
  unfold fetch
  split
  next => rfl
  next p hp => rw [hp] at h; exact if_pos h

theorem acceptWord_of_owed_zero (h : s.payloadOwed = 0) (w : Word) : acceptWord w s = acceptCommandWord w s := by
  unfold State.payloadOwed at h
  unfold acceptWord
  split
  next => rfl
  next p hp => rw [hp] at h; exact if_pos h

theorem pending_of_owed_pos (h : s.payloadOwed ≠ 0) : ∃ p, s.pending = some p ∧ 0 < p.need := by
  unfold State.payloadOwed at h
  split at h
  next => exact absurd rfl h
  next p hp => exact ⟨p, hp, Nat.pos_of_ne_zero h⟩

theorem acceptWord_of_owed {p : PendingString} (hp : s.pending = some p) (hn : 0 < p.need) (w : Word) :
    acceptWord w s = if (p.push w).need = 0 then exec (p.push w).command (s.setPort none s.input)
      else .next (s.setPort (some (p.push w)) s.input) := by
  simp only [acceptWord, hp, if_neg hn.ne']

end

/-- What a word does, told both ways: `acceptWord` is the body of R89's loop, and `whole` and `cut` are what a fetch finds
with the word at the head of the port, left alone or with a reset during it. `wordRole` says that there is no other case. -/
inductive WordRole (s : State) (w : Word) : Prop where
  /-- It completes a command. -/
  | completes (i : Instr) (accept : acceptWord w s = exec i (s.setPort none s.input))
      (whole : ∀ rest, fetch s.pending (.word w :: rest) = .command i rest)
      (cut : ∀ taken rest, fetch s.pending (.cutWord w taken :: rest) = .cutCommand i taken rest)
  /-- It selects no row of the table. -/
  | noRow (r : Reject) (accept : acceptWord w s = .next (s.setPort none s.input))
      (whole : ∀ rest, fetch s.pending (.word w :: rest) = .noCommand r rest)
      (cut : ∀ taken rest, fetch s.pending (.cutWord w taken :: rest) = .reset rest)
  /-- It leaves a DRAWSTR pending. -/
  | waits (p : PendingString) (accept : acceptWord w s = .next (s.setPort (some p) s.input))
      (whole : ∀ rest, fetch s.pending (.word w :: rest) = gatherPayload rest p)
      (owes : 0 < p.need)
      (cut : ∀ taken rest, fetch s.pending (.cutWord w taken :: rest) = .reset rest)

theorem wordRole (s : State) (w : Word) : WordRole s w := by
  by_cases h : s.payloadOwed = 0
  · have hfetch := fetch_of_owed_zero h
    have haccept := acceptWord_of_owed_zero h w
    cases hw : decodeFirst w with
    | command i =>
      exact .completes i (by simp only [haccept, acceptCommandWord, hw])
        (fun rest => by rw [hfetch, fetchFirst_word_of_command hw])
        (fun taken rest => by simp only [hfetch, fetchFirst, hw])
    | stringHeader x y len =>
      exact .waits ⟨x, y, len, []⟩ (by simp only [haccept, acceptCommandWord, hw])
        (fun rest => by rw [hfetch, fetchFirst_word_of_stringHeader hw]) (payloadWords_pos (decodeFirst_header hw))
        (fun taken rest => by simp only [hfetch, fetchFirst, hw])
    | noCommand r =>
      exact .noRow r (by simp only [haccept, acceptCommandWord, hw, execNoCommand_eq])
        (fun rest => by rw [hfetch, fetchFirst_word_of_noCommand hw])
        (fun taken rest => by simp only [hfetch, fetchFirst, hw])
  · obtain ⟨p, hp, hn⟩ := pending_of_owed_pos h
    have hfetch : ∀ input, fetch s.pending input = gatherPayload input p := by
      rw [hp]
      exact fetch_of_need_pos hn
    have haccept := acceptWord_of_owed hp hn w
    by_cases hlast : (p.push w).need = 0
    · exact .completes (p.push w).command (haccept.trans (if_pos hlast))
        (fun rest => by rw [hfetch]; exact if_pos hlast) (fun taken rest => by rw [hfetch]; exact if_pos hlast)
    · exact .waits (p.push w) (haccept.trans (if_neg hlast)) (fun rest => by rw [hfetch]; exact if_neg hlast)
        (Nat.pos_of_ne_zero hlast) (fun taken rest => by rw [hfetch]; exact if_neg hlast)

/-! ### A step by what its fetch finds (R89, R155, R190) -/

section
variable {s : State} {rest : List PortEvent}

theorem step_of_fetch_waiting {p : PendingString} (h : fetch s.pending s.input = .waiting p) :
    step s = .next (s.setPort (some p) []) := by
  simp only [step, h]

theorem step_of_fetch_reset (h : fetch s.pending s.input = .reset rest) : step s = .next (resetBlock rest s) := by
  simp only [step, h]

theorem step_of_fetch_noCommand {r : Reject} (h : fetch s.pending s.input = .noCommand r rest) :
    step s = .next (s.setPort none rest) := by
  simp only [step, h, execNoCommand_eq]

theorem step_of_fetch_cutCommand {i : Instr} {taken : Nat} (h : fetch s.pending s.input = .cutCommand i taken rest) :
    step s = cutShort taken rest s (exec i (s.setPort none rest)) := by
  simp only [step, h]

/-- An empty port changes nothing, whatever is pending (R89, R181). -/
theorem step_of_input_nil (h : s.input = []) : step s = .next s := by
  cases hp : s.pending with
  | none => simp only [step, h, hp, fetch, fetchFirst]
  | some p =>
    by_cases hn : p.need = 0
    · simp only [step, h, hp, fetch, if_pos hn, fetchFirst]
    · have hwait : fetch s.pending s.input = .waiting p := by rw [hp, h]; exact if_neg hn
      rw [step_of_fetch_waiting hwait, ← hp, ← h, State.setPort_self]

/-- A step depends on the pending DRAWSTR and on the port only through what the fetch finds; an idle step, which leaves
them alone, is set aside. -/
theorem step_setPort {p : Option PendingString} (h : fetch p rest = fetch s.pending s.input)
    (hidle : fetch s.pending s.input ≠ .idle) : step (s.setPort p rest) = step s := by
  unfold step
  rw [State.setPort_pending, State.setPort_input, h]
  cases hf : fetch s.pending s.input with
  | idle => exact absurd hf hidle
  | _ => rfl

end

/-! ### A step and R89's loop (R10, R89, R190) -/

theorem setPort_of_input_nil {s : State} (h : s.input = []) : s.setPort s.pending [] = s := by
  rw [← h, State.setPort_self]

/-- With `e` first on the port, R89's loop accepts `e`, making `u` of it with the port empty, and a step from `s` either ends
there or goes on as a step from there. -/
def StepPassesEvent (s : State) (e : PortEvent) (rest : List PortEvent) : Prop :=
  ∃ u, acceptEvent e (s.setPort s.pending []) = .next u ∧ u.input = [] ∧
    (step s = .next (u.setPort u.pending rest) ∨ step s = step (u.setPort u.pending rest))

section
variable {s : State} {w : Word} {taken : Nat} {rest : List PortEvent}

theorem stepPassesEvent_reset (hin : s.input = .reset :: rest) : StepPassesEvent s .reset rest := by
  have hf : fetch s.pending s.input = .reset rest := by rw [hin, fetch_reset]
  exact ⟨resetBlock [] s, rfl, rfl, .inl (step_of_fetch_reset hf)⟩

/-- A step goes on after a word exactly where the word leaves a DRAWSTR pending. -/
theorem stepPassesEvent_word (hin : s.input = .word w :: rest) : StepPassesEvent s (.word w) rest := by
  cases wordRole (s.setPort s.pending []) w with
  | completes i accept whole =>
    have hf : fetch s.pending s.input = .command i rest := by rw [hin]; exact whole rest
    obtain ⟨v, hv⟩ := exec_setPort i s
    exact ⟨v.setPort none [], accept.trans (hv none []), rfl, .inl ((step_of_fetch_command hf).trans (hv none rest))⟩
  | noRow r accept whole =>
    have hf : fetch s.pending s.input = .noCommand r rest := by rw [hin]; exact whole rest
    exact ⟨s.setPort none [], accept, rfl, .inl (step_of_fetch_noCommand hf)⟩
  | waits p accept whole owes =>
    have hf : fetch s.pending s.input = gatherPayload rest p := by rw [hin]; exact whole rest
    have hsame : fetch (some p) rest = fetch s.pending s.input := (fetch_of_need_pos owes rest).trans hf.symm
    have hidle : fetch s.pending s.input ≠ .idle := hf ▸ gatherPayload_ne_idle rest p
    exact ⟨s.setPort (some p) [], accept, rfl, .inr (step_setPort hsame hidle).symm⟩

/-- A reset during a word that runs nothing is a plain reset (R190). -/
theorem stepPassesEvent_cutWord_silent {p : Option PendingString} (hin : s.input = .cutWord w taken :: rest)
    (haccept : acceptWord w (s.setPort s.pending []) = .next (s.setPort p []))
    (hcut : fetch s.pending (.cutWord w taken :: rest) = .reset rest) : StepPassesEvent s (.cutWord w taken) rest := by
  have hloop : acceptEvent (.cutWord w taken) (s.setPort s.pending []) = .next (resetBlock [] s) := by
    rw [acceptEvent, haccept]
    exact congrArg Host.Outcome.next (resetExecuting_silent rfl)
  exact ⟨resetBlock [] s, hloop, rfl, .inl (step_of_fetch_reset (hin ▸ hcut))⟩

theorem stepPassesEvent_cutWord (hin : s.input = .cutWord w taken :: rest) :
    StepPassesEvent s (.cutWord w taken) rest := by
  cases wordRole (s.setPort s.pending []) w with
  | completes i accept whole cut =>
    have hf : fetch s.pending s.input = .cutCommand i taken rest := by rw [hin]; exact cut taken rest
    obtain ⟨v, hv⟩ := exec_setPort i s
    have hloop : acceptEvent (.cutWord w taken) (s.setPort s.pending []) = .next (resetExecuting taken [] s v) := by
      rw [acceptEvent, accept]
      exact congrArg (cutShort taken [] s) (hv none [])
    have hstep : step s = .next (resetExecuting taken rest s v) :=
      (step_of_fetch_cutCommand hf).trans (congrArg (cutShort taken rest s) (hv none rest))
    exact ⟨resetExecuting taken [] s v, hloop, rfl, .inl hstep⟩
  | noRow r accept whole cut => exact stepPassesEvent_cutWord_silent hin accept (cut taken rest)
  | waits p accept whole owes cut => exact stepPassesEvent_cutWord_silent hin accept (cut taken rest)

theorem stepPassesEvent {e : PortEvent} (hin : s.input = e :: rest) : StepPassesEvent s e rest := by
  cases e with
  | reset => exact stepPassesEvent_reset hin
  | word w => exact stepPassesEvent_word hin
  | cutWord w taken => exact stepPassesEvent_cutWord hin

end

theorem acceptAll_cons_of_next {e : PortEvent} {s u : State} (h : acceptEvent e s = .next u) (rest : List PortEvent) :
    acceptAll (e :: rest) s = acceptAll rest u := by
  simp only [acceptAll, h]

theorem acceptAll_append_of_next {taken : List PortEvent} {s u : State} (h : acceptAll taken s = .next u)
    (rest : List PortEvent) : acceptAll (taken ++ rest) s = acceptAll rest u := by
  induction taken generalizing s with
  | nil => cases h; rfl
  | cons e taken ih =>
    cases he : acceptEvent e s with
    | next v =>
      rw [acceptAll_cons_of_next he] at h
      rw [List.cons_append, acceptAll_cons_of_next he, ih h]
    | fault f | refused r => simp only [acceptAll, he] at h; cases h

/-- What a step is: R89's loop over the events it takes from the front of the port. It takes at least one if there is one. -/
theorem step_eq_acceptAll_taken {s t : State} (h : step s = .next t) :
    ∃ taken, s.input = taken ++ t.input ∧ (s.input ≠ [] → taken ≠ []) ∧
      acceptAll taken (s.setPort s.pending []) = .next (t.setPort t.pending []) := by
  induction hin : s.input generalizing s with
  | nil =>
    cases (step_of_input_nil hin).symm.trans h
    exact ⟨[], hin.symm, absurd rfl, rfl⟩
  | cons e rest ih =>
    obtain ⟨u, hu, huin, hends | hgoes⟩ := stepPassesEvent hin
    · cases hends.symm.trans h
      refine ⟨[e], rfl, fun _ => List.cons_ne_nil e [], ?_⟩
      rw [acceptAll_cons_of_next hu]
      exact congrArg Host.Outcome.next (setPort_of_input_nil huin).symm
    · obtain ⟨taken, hrest, -, haccept⟩ := ih (hgoes.symm.trans h) rfl
      refine ⟨e :: taken, congrArg (e :: ·) hrest, fun _ => List.cons_ne_nil e taken, ?_⟩
      rw [acceptAll_cons_of_next hu, ← haccept]
      exact congrArg (acceptAll taken) (setPort_of_input_nil huin).symm

/-- A step keeps what R89's loop makes of the port: it is the loop over the events it takes, and leaves the others. -/
theorem acceptAll_port_of_step {s t : State} (h : step s = .next t) :
    acceptAll s.input (s.setPort s.pending []) = acceptAll t.input (t.setPort t.pending []) := by
  obtain ⟨taken, hin, -, haccept⟩ := step_eq_acceptAll_taken h
  rw [hin, acceptAll_append_of_next haccept]

theorem step_input_length {s t : State} (h : step s = .next t) : t.input.length ≤ s.input.length - 1 := by
  obtain ⟨taken, hin, hne, -⟩ := step_eq_acceptAll_taken h
  have hsum : s.input.length = taken.length + t.input.length := by rw [hin, List.length_append]
  by_cases h0 : s.input = []
  · have : s.input.length = 0 := List.length_eq_zero_iff.2 h0
    omega
  · have : 0 < taken.length := List.length_pos_iff.2 (hne h0)
    omega

/-! ### Runs -/

theorem run_succ_of_step {s t : State} (h : step s = .next t) (n : Nat) :
    Host.Core.run core (n + 1) s = Host.Core.run core n t := by
  have hcore : core.step s = .next t := h
  simp only [Host.Core.run, hcore]

/-- Steps enough to empty the port are R89's loop over it: each keeps what the loop makes of the port, and takes an event
while there is one. -/
theorem run_eq_acceptAll {n : Nat} {s : State} (hn : s.input.length ≤ n) :
    Host.Core.run core n s = acceptAll s.input (s.setPort s.pending []) := by
  induction n generalizing s with
  | zero =>
    have hin : s.input = [] := List.length_eq_zero_iff.1 (Nat.le_zero.1 hn)
    rw [setPort_of_input_nil hin, hin]
    rfl
  | succ n ih =>
    obtain ⟨t, ht⟩ := step_safe s
    have hlen := step_input_length ht
    rw [run_succ_of_step ht, ih (by omega), ← acceptAll_port_of_step ht]

/-! ### The obligations on the stream -/

/-- Settles O43: the loop over the events a step takes is the step itself. -/
theorem everyStepKeepsStreamMeaning : Obligations.EveryStepKeepsStreamMeaning :=
  fun _ _ => acceptAll_port_of_step

/-- Settles O42: the port holds as many events as steps are run. -/
theorem stepsRefineStreamDecoder : Obligations.StepsRefineStreamDecoder :=
  fun _ => run_eq_acceptAll le_rfl

/-- Settles O41: the header leaves its DRAWSTR pending, and payload short of what it owes only adds to it. -/
theorem incompleteStringOnlyWaits : Obligations.IncompleteStringOnlyWaits := by
  intro s x y len payload hp hl hin
  have hlen : len ≠ 0 := by
    rintro rfl
    exact absurd hl (Nat.not_lt_zero _)
  have hgather := gatherPayload_short payload { x := x, y := y, len := len, payload := [] } hl []
  rw [List.append_nil] at hgather
  refine step_of_fetch_waiting ?_
  rw [hp, hin, List.map_cons]
  exact (fetchFirst_word_of_stringHeader (decodeFirst_drawstr_header x y hlen) _).trans hgather

end Sys2Proof.Machine

/-! ## The framebuffer's pixel commands, and the statements of 40_fb_pixel.md -/

namespace Sys2Proof.Machine

/-! ### The commands as their shared operations (R112, R113) -/

theorem exec_fill (value : Bool) (s : State) : exec (.fill value) s = .next (fillBuffer value s) := rfl

theorem exec_present (s : State) : exec .present s = .next (s.emit (.frame s.currentFrame)) := rfl

/-! ### Pixels as bits of the buffer's bytes (R50, R54) -/

/-- A pixel reads 1 exactly when it is in range and its bit of its byte is set, both written out by R50. -/
theorem getPixel_iff (x y : Nat) (s : State) :
    getPixel x y s = true ↔ x < 128 ∧ y < 64 ∧ (s.bufByte (y / 8 + x * 8)).getLsbD (y % 8) = true := by
  rw [← and_assoc, ← inRange_iff]
  cases hr : inRange x y with
  | true => simp [getPixel_in_range hr, pixelIndex, pixelBit]
  | false => simp [getPixel_out_of_range hr]

/-- FILL as pixels, those out of range too: they read 0 (R54, R112). -/
theorem getPixel_fillBuffer_eq (value : Bool) (s : State) (a b : Nat) :
    getPixel a b (fillBuffer value s) = (value && inRange a b) := by
  cases hr : inRange a b with
  | true => rw [getPixel_fillBuffer value s hr, Bool.and_true]
  | false => rw [getPixel_out_of_range hr, Bool.and_false]

/-! ### The obligations -/

/-- Settles O1: SETPX is one pixel write; its bytes, its pixels and the dropped write are the laws of that primitive. -/
theorem setpxWritesOnePixel : Obligations.SetpxWritesOnePixel := by
  refine ⟨decodeFirst_setpx, fun x y on s => ?_⟩
  refine ⟨(setPixel x.toNat y.toNat on s).buf, ?_⟩
  rw [exec_setpx, ← setPixel_eq_setBuf]
  refine ⟨rfl, fun a b => ?_, fun i hi => ?_, fun hout => ?_⟩
  · simp only [getPixel_setPixel, inRange_iff]
  · refine bufByte_setPixel_other (fun hr he => hi ?_) on s
    obtain ⟨hx, hy⟩ := (inRange_iff _ _).1 hr
    exact ⟨hx, hy, he⟩
  · have hr : inRange x.toNat y.toNat = false := Bool.eq_false_iff.2 fun h => hout ((inRange_iff _ _).1 h)
    rw [setPixel_out_of_range hr]

/-- Settles O3: the buffer that FILL leaves is the same from every state, and its bytes and pixels are FILL's. -/
theorem fillWritesEveryPixel : Obligations.FillWritesEveryPixel := by
  refine ⟨decodeFirst_fill, fun value => ?_⟩
  obtain ⟨m, -, hm⟩ := fillBuffer_const value
  refine ⟨m, fun s => ?_⟩
  rw [exec_fill, ← hm s]
  exact ⟨rfl, fun _ => bufByte_fillBuffer value s, getPixel_fillBuffer_eq value s⟩

/-- Settles O2: the response is the pixel read, which is the bit of R50 where the pixel is in range. -/
theorem getpxRespondsPixel : Obligations.GetpxRespondsPixel := by
  refine ⟨decodeFirst_getpx, fun x y s => ?_⟩
  simp only [exec_getpx, getPixel_iff]

/-- Settles O4: the second FILL overwrites the whole buffer, the only field the first one wrote. -/
theorem lastFillDecides : Obligations.LastFillDecides := by
  intro v v' s
  refine ⟨fillBuffer v s, exec_fill v s, ?_⟩
  rw [exec_fill, exec_fill, fillBuffer_fillBuffer]

/-- Settles O5: the frame is the one of the present buffer, whose length and bytes are laws of its own. -/
theorem presentEmitsSnapshot : Obligations.PresentEmitsSnapshot :=
  ⟨decodeFirst_present, fun s =>
    ⟨s.currentFrame, exec_present s, currentFrame_length s, fun _ => currentFrame_byte s, rfl, rfl⟩⟩

end Sys2Proof.Machine

/-! ## The shape commands, and the statements of 41_fb_shapes.md -/

namespace Sys2Proof.Machine

/-! ### The commands as their shared operations (R120 to R122) -/

theorem exec_drawsq (x y side : Byte) (s : State) :
    exec (.drawsq x y side) s = .next (paintSquare x.toNat y.toNat side.toNat true s) := rfl

theorem exec_erasesq (x y side : Byte) (s : State) :
    exec (.erasesq x y side) s = .next (paintSquare x.toNat y.toNat side.toNat false s) := rfl

theorem exec_drawx (x y : Byte) (s : State) : exec (.drawx x y) s = .next (paintCross x.toNat y.toNat s) := rfl

/-! ### What painting writes and what it keeps (R53 to R55) -/

section
variable {f : State → State} {P : Nat → Nat → Option Bool} {a b : Nat}

/-- A covered pixel gets its value, if it is on the display. -/
theorem Paints.getPixel_covered (h : Paints f P) {v : Bool} (hP : P a b = some v) (hr : inRange a b = true)
    (s : State) : getPixel a b (f s) = v := by
  rw [h.pixel s a b hr, hP, Option.getD_some]

/-- A pixel that is not covered keeps its value, off the display too, where it reads 0. -/
theorem Paints.getPixel_uncovered (h : Paints f P) (hP : P a b = none) (s : State) :
    getPixel a b (f s) = getPixel a b s := by
  cases hr : inRange a b with
  | true => rw [h.pixel s a b hr, hP, Option.getD_none]
  | false => rw [getPixel_out_of_range hr, getPixel_out_of_range hr]

/-- Whatever set contains the covered pixels, the bytes without a pixel of the set are kept. -/
theorem Paints.otherBytesKept (h : Paints f P) {covered : Nat → Nat → Prop}
    (hP : ∀ a b, ¬covered a b → P a b = none) (s : State) : OtherBytesKept covered s (f s) :=
  fun i hi => h.bytes s i fun a b hr hab => hi a b hr (not_not.1 (mt (hP a b) hab))

end

/-! ### The square block (R120, R121, R123) -/

theorem getPixel_paintSquare (x y side : Nat) (on : Bool) (s : State) {a b : Nat} (hr : inRange a b = true) :
    getPixel a b (paintSquare x y side on s) = if inSquare x y side a b then on else getPixel a b s := by
  have h := paints_paintSquare x y side on
  split
  · exact h.getPixel_covered (if_pos ‹_›) hr s
  · exact h.getPixel_uncovered (if_neg ‹_›) s

/-- Drawing and erasing a block are one operation with two values: only the buffer changes, the block's pixels get the
value, the other pixels and bytes are kept. -/
theorem paintSquare_writes_block (x y side : Nat) (on : Bool) (s : State) :
    ∃ m, paintSquare x y side on s = s.setBuf m ∧
      (∀ a b, a < 128 → b < 64 → getPixel a b (s.setBuf m) =
        if x ≤ a ∧ a < x + side ∧ y ≤ b ∧ b < y + side then on else getPixel a b s) ∧
      OtherBytesKept (fun a b => inSquare x y side a b) s (s.setBuf m) := by
  have h := paints_paintSquare x y side on
  refine ⟨(paintSquare x y side on s).buf, h.frame s, ?_⟩
  rw [← h.frame s]
  refine ⟨fun a b ha hb => ?_, h.otherBytesKept (fun _ _ hout => if_neg hout) s⟩
  simp only [getPixel_paintSquare x y side on s ((inRange_iff a b).2 ⟨ha, hb⟩), inSquare_iff]

/-- Where the block was drawn the erasing decides; elsewhere neither writes (R123). -/
theorem getPixel_erase_draw (x y side : Nat) (s : State) {a b : Nat} (hr : inRange a b = true) :
    getPixel a b (paintSquare x y side false (paintSquare x y side true s)) =
      if inSquare x y side a b then false else getPixel a b s := by
  rw [getPixel_paintSquare _ _ _ _ _ hr, getPixel_paintSquare _ _ _ _ _ hr]
  split <;> rfl

/-! ### The diagonal cross (R122) -/

/-- The two diagonals as the rule writes them. -/
theorem onCross_iff_diagonals (x y a b : Nat) :
    onCross x y a b = true ↔ ∃ i < 8, (a = x + i ∨ a = x + (7 - i)) ∧ b = y + i := by
  simp only [onCross_iff, or_and_right]

theorem getPixel_paintCross_on {x y a b : Nat} (h : onCross x y a b = true) (ha : a < 128) (hb : b < 64) (s : State) :
    getPixel a b (paintCross x y s) = true :=
  (paints_paintCross x y).getPixel_covered (if_pos h) ((inRange_iff a b).2 ⟨ha, hb⟩) s

theorem getPixel_paintCross_off {x y a b : Nat} (h : ¬onCross x y a b = true) (s : State) :
    getPixel a b (paintCross x y s) = getPixel a b s :=
  (paints_paintCross x y).getPixel_uncovered (if_neg h) s

/-! ### The obligations -/

/-- Settles O6: DRAWSQ writes the block with set. -/
theorem drawsqSetsBlock : Obligations.DrawsqSetsBlock := by
  refine ⟨decodeFirst_drawsq, fun x y side s => ?_⟩
  rw [exec_drawsq]
  obtain ⟨m, hm, hpixels, hbytes⟩ := paintSquare_writes_block x.toNat y.toNat side.toNat true s
  exact ⟨m, congrArg Host.Outcome.next hm, hpixels, hbytes⟩

/-- Settles O7: ERASESQ writes the block with clear. -/
theorem erasesqClearsBlock : Obligations.ErasesqClearsBlock := by
  refine ⟨decodeFirst_erasesq, fun x y side s => ?_⟩
  rw [exec_erasesq]
  obtain ⟨m, hm, hpixels, hbytes⟩ := paintSquare_writes_block x.toNat y.toNat side.toNat false s
  exact ⟨m, congrArg Host.Outcome.next hm, hpixels, hbytes⟩

/-- Settles O8: afterwards the block is clear and the rest as before, so a pixel can differ only in the block, and does
exactly if it was set. -/
theorem eraseUndoesDrawOnClearBlock : Obligations.EraseUndoesDrawOnClearBlock := by
  intro x y side s
  have hafter := fun a b (ha : a < 128) (hb : b < 64) =>
    getPixel_erase_draw x.toNat y.toNat side.toNat s ((inRange_iff a b).2 ⟨ha, hb⟩)
  refine ⟨_, _, exec_drawsq x y side s, exec_erasesq x y side _, hafter, ?_, ?_⟩
  · intro hsame a b ha hb hin
    rw [hsame a b, hafter a b ha hb, if_pos hin]
  · intro hclear a b
    cases hr : inRange a b with
    | false => rw [getPixel_out_of_range hr, getPixel_out_of_range hr]
    | true =>
      obtain ⟨ha, hb⟩ := (inRange_iff a b).1 hr
      rw [hafter a b ha hb]
      split
      · exact hclear a b ha hb ‹_›
      · rfl

/-- Settles O9: DRAWX covers the two diagonals and no other pixel. -/
theorem drawxSetsDiagonals : Obligations.DrawxSetsDiagonals := by
  refine ⟨decodeFirst_drawx, fun x y s => ?_⟩
  have h := paints_paintCross x.toNat y.toNat
  refine ⟨(paintCross x.toNat y.toNat s).buf, ?_⟩
  rw [exec_drawx, ← h.frame s]
  refine ⟨rfl, fun i hi hb => ⟨fun ha => ?_, fun ha => ?_⟩, fun a b hout => ?_,
    h.otherBytesKept (fun a b hout => ?_) s⟩
  · exact getPixel_paintCross_on ((onCross_iff_diagonals _ _ _ _).2 ⟨i, hi, .inl rfl, rfl⟩) ha hb s
  · exact getPixel_paintCross_on ((onCross_iff_diagonals _ _ _ _).2 ⟨i, hi, .inr rfl, rfl⟩) ha hb s
  · exact getPixel_paintCross_off (mt (onCross_iff_diagonals _ _ _ _).1 hout) s
  · exact if_neg (mt (onCross_iff_diagonals _ _ _ _).1 hout)

end Sys2Proof.Machine

/-! ## The text commands, and the statements of 42_fb_text.md -/

namespace Sys2Proof.Machine

/-! ### The commands as their shared operations (R132, R133) -/

theorem exec_drawch (x y ch : Byte) (s : State) :
    exec (.drawch x y ch) s = .next (drawChar Config.glyph ch x.toNat y.toNat s) := rfl

theorem exec_drawstr (x y : Byte) (chars : List Byte) (s : State) :
    exec (.drawstr x y chars) s = .next (drawChars Config.glyph chars x.toNat y.toNat s) := rfl

/-- A DRAWSTR word is a whole command or a header, by its length field (R83, R87). -/
theorem decodeFirst_drawstr (x y len : Byte) :
    decodeFirst (headerWord 0x08 x y len) =
      if len = 0 then .command (.drawstr x y []) else .stringHeader x y len := by
  split
  case isTrue h => rw [h, decodeFirst_drawstr_empty]
  case isFalse h => exact decodeFirst_drawstr_header x y h

/-! ### Glyph rows and columns (R130, R131) -/

/-- The glyph row with the character codes compared as bytes, as R130 compares them. -/
theorem glyphRow_eq (ch : Byte) :
    glyphRow ch =
      if 0x41 ≤ ch ∧ ch ≤ 0x5A then some (11 + (ch.toNat - 0x41))
      else if 0x30 ≤ ch ∧ ch ≤ 0x39 then some (1 + (ch.toNat - 0x30))
      else none := rfl

/-- Row 0 of the ROM is selected by no character, and no row past the last (R130). -/
theorem glyphRow_bounds {ch : Byte} {row : Nat} (h : glyphRow ch = some row) : 1 ≤ row ∧ row ≤ 36 := by
  unfold glyphRow at h
  split at h
  case isTrue => cases h; omega
  case isFalse =>
    split at h
    case isTrue => cases h; omega
    case isFalse => cases h

section
variable {ch : Byte} (glyph : Nat → Nat → Byte) (i : Nat)

/-- The column of a character with a row is the low five bits of its ROM byte (R131). -/
theorem getLsbD_glyphCol_of_row {row : Nat} (h : glyphRow ch = some row) {j : Nat} (hj : j < 5) :
    (glyphCol glyph ch i).getLsbD j = (glyph row i).getLsbD j := by
  simp [glyphCol, h, hj]

/-- The column of a character with no row is blank (R131). -/
theorem glyphCol_of_no_row (h : glyphRow ch = none) : glyphCol glyph ch i = 0 := by
  simp only [glyphCol, h]

end

/-! ### The glyph cell (R132) -/

/-- The pixels of a cell, by their offsets from its corner. -/
theorem inCell_offset (cell : Nat × Nat) {i j : Nat} (hi : i < 5) (hj : j < 5) :
    inCell cell (cell.1 + i) (cell.2 + j) = true :=
  (inSquare_iff ..).2 (by omega)

/-- A pixel of the cell that is on the display reads its glyph bit afterwards. -/
theorem getPixel_drawChar_cell (glyph : Nat → Nat → Byte) (ch : Byte) (x y : Nat) (s : State) {i j : Nat}
    (hi : i < 5) (hj : j < 5) (hr : inRange (x + i) (y + j) = true) :
    getPixel (x + i) (y + j) (drawChar glyph ch x y s) = (glyphCol glyph ch i).getLsbD j := by
  have hcell : inSquare x y 5 (x + i) (y + j) = true := inCell_offset (x, y) hi hj
  rw [(paints_drawChar glyph ch x y).getPixel_covered (if_pos hcell) hr,
    Nat.add_sub_cancel_left, Nat.add_sub_cancel_left]

/-! ### The closed form of R133's loop: the cells of a string -/

section
variable {cx k : Nat} (cy : Nat)

theorem wrap_of_fits (h : cx + 5 ≤ 128) : wrapColumn cx = cx ∧ wrapRow cx cy = cy :=
  ⟨if_neg (Nat.not_lt.2 h), if_neg (Nat.not_lt.2 h)⟩

theorem wrap_of_exceeds (h : 128 < cx + 5) : wrapColumn cx = 0 ∧ wrapRow cx cy = cy + 5 :=
  ⟨if_pos h, if_pos h⟩

/-- A character that fits on the first line leaves one place fewer to the next. -/
theorem firstLineCells_of_fits (h : cx + 5 ≤ 128) : firstLineCells cx = firstLineCells (cx + 5) + 1 := by
  unfold firstLineCells
  omega

theorem firstLineCells_of_exceeds (h : 128 < cx + 5) : firstLineCells cx = 0 :=
  Nat.div_eq_of_lt (by omega)

theorem stringCell_of_firstLine (h : k < firstLineCells cx) : stringCell cx cy k = (cx + 5 * k, cy) :=
  if_pos h

theorem stringCell_of_laterLine (h : firstLineCells cx ≤ k) :
    stringCell cx cy k =
      (5 * ((k - firstLineCells cx) % 25), cy + 5 * (1 + (k - firstLineCells cx) / 25)) :=
  if_neg (Nat.not_lt.2 h)

/-- From column 0 on every line has 25 places. -/
theorem stringCell_of_lineStart (k : Nat) : stringCell 0 cy k = (5 * (k % 25), cy + 5 * (k / 25)) := by
  have hline : firstLineCells 0 = 25 := rfl
  rcases Nat.lt_or_ge k 25 with h | h
  · rw [stringCell_of_firstLine cy (hline ▸ h), Prod.mk.injEq]
    omega
  · rw [stringCell_of_laterLine cy (hline ▸ h), hline, Prod.mk.injEq]
    omega

end

/-- A place further on the same line: its cells from the second on are those of the cursor advanced by one cell. -/
theorem stringCell_succ_of_fits {cx : Nat} (h : cx + 5 ≤ 128) (cy k : Nat) :
    stringCell cx cy (k + 1) = stringCell (cx + 5) cy k := by
  have hplaces := firstLineCells_of_fits h
  rcases Nat.lt_or_ge k (firstLineCells (cx + 5)) with hk | hk
  · rw [stringCell_of_firstLine cy hk, stringCell_of_firstLine cy (by omega), Prod.mk.injEq]
    omega
  · rw [stringCell_of_laterLine cy hk, stringCell_of_laterLine cy (by omega), hplaces, Nat.add_sub_add_right]

/-- Past the end of the line the cells are those of a string from column 0 of the next one. -/
theorem stringCell_of_exceeds {cx : Nat} (h : 128 < cx + 5) (cy k : Nat) :
    stringCell cx cy k = stringCell 0 (cy + 5) k := by
  rw [stringCell_of_laterLine cy (by rw [firstLineCells_of_exceeds h]; exact Nat.zero_le k),
    firstLineCells_of_exceeds h, stringCell_of_lineStart, Prod.mk.injEq]
  omega

/-- The first character stands where the loop puts it: at the cursor, wrapped. -/
theorem stringCell_zero (cx cy : Nat) : stringCell cx cy 0 = (wrapColumn cx, wrapRow cx cy) := by
  rcases Nat.lt_or_ge 128 (cx + 5) with h | h
  · obtain ⟨hcolumn, hrow⟩ := wrap_of_exceeds cy h
    rw [hcolumn, hrow, stringCell_of_exceeds h, stringCell_of_lineStart]
  · obtain ⟨hcolumn, hrow⟩ := wrap_of_fits cy h
    have hplaces := firstLineCells_of_fits h
    rw [hcolumn, hrow, stringCell_of_firstLine cy (by omega), Nat.mul_zero, Nat.add_zero]

/-- The later characters stand where a string of them from the advanced cursor does. -/
theorem stringCell_succ (cx cy k : Nat) :
    stringCell cx cy (k + 1) = stringCell (wrapColumn cx + 5) (wrapRow cx cy) k := by
  rcases Nat.lt_or_ge 128 (cx + 5) with h | h
  · obtain ⟨hcolumn, hrow⟩ := wrap_of_exceeds cy h
    rw [hcolumn, hrow, stringCell_of_exceeds h, stringCell_succ_of_fits (by decide)]
  · obtain ⟨hcolumn, hrow⟩ := wrap_of_fits cy h
    rw [hcolumn, hrow, stringCell_succ_of_fits h]

theorem cellDrawn_iff (cx cy k : Nat) : cellDrawn cx cy k = true ↔ (stringCell cx cy k).2 + 5 ≤ 64 := by
  simp [cellDrawn]

theorem cellDrawn_succ (cx cy k : Nat) :
    cellDrawn cx cy (k + 1) = cellDrawn (wrapColumn cx + 5) (wrapRow cx cy) k := by
  simp only [cellDrawn, stringCell_succ]

/-- No cell exceeds the width. -/
theorem stringCell_fits_width (cx cy k : Nat) : (stringCell cx cy k).1 + 5 ≤ 128 := by
  rcases Nat.lt_or_ge k (firstLineCells cx) with hk | hk
  · have hplaces : firstLineCells cx = (128 - cx) / 5 := rfl
    rw [stringCell_of_firstLine cy hk]
    omega
  · rw [stringCell_of_laterLine cy hk]
    omega

/-- Cells follow one another in reading order, without overlap. -/
theorem stringCell_reading_order (cx cy : Nat) {j k : Nat} (hjk : j < k) :
    (stringCell cx cy j).2 + 5 ≤ (stringCell cx cy k).2 ∨
      (stringCell cx cy j).2 = (stringCell cx cy k).2 ∧ (stringCell cx cy j).1 + 5 ≤ (stringCell cx cy k).1 := by
  simp only [stringCell]
  split_ifs <;> omega

/-- The characters drawn are the first ones: after the first that has no line the loop stops. -/
theorem cellDrawn_of_lt {cx cy j k : Nat} (hjk : j < k) (h : cellDrawn cx cy k = true) :
    cellDrawn cx cy j = true := by
  rw [cellDrawn_iff] at h ⊢
  have := stringCell_reading_order cx cy hjk
  omega

/-- No pixel is in the cells of two characters. -/
theorem stringCell_disjoint {cx cy j k a b : Nat} (hjk : j < k) (hj : inCell (stringCell cx cy j) a b = true) :
    inCell (stringCell cx cy k) a b = false := by
  rw [inCell, inSquare_iff] at hj
  rw [inCell, ← Bool.not_eq_true, inSquare_iff]
  have := stringCell_reading_order cx cy hjk
  omega

/-! ### What a string paints, by the closed form (R133) -/

/-- One turn of the loop: the first character's cell under what the rest of the string paints, if its line fits. -/
theorem textPaint_cons (glyph : Nat → Nat → Byte) (ch : Byte) (rest : List Byte) (cx cy a b : Nat) :
    textPaint glyph (ch :: rest) cx cy a b =
      if cellDrawn cx cy 0 then
        (textPaint glyph rest (wrapColumn cx + 5) (wrapRow cx cy) a b).or
          (if inCell (stringCell cx cy 0) a b then
            some ((glyphCol glyph ch (a - (stringCell cx cy 0).1)).getLsbD (b - (stringCell cx cy 0).2))
          else none)
      else none := by
  simp only [textPaint, cellDrawn_iff, stringCell_zero, inCell]
  by_cases h : wrapRow cx cy + 5 ≤ 64
  · rw [if_neg (Nat.not_lt.2 h), if_pos h]
  · rw [if_pos (Nat.lt_of_not_le h), if_neg h]

/-- A pixel in no drawn cell is not painted. -/
theorem textPaint_eq_none (glyph : Nat → Nat → Byte) {chars : List Byte} {cx cy a b : Nat}
    (h : ∀ k < chars.length, cellDrawn cx cy k = true → inCell (stringCell cx cy k) a b = false) :
    textPaint glyph chars cx cy a b = none := by
  induction chars generalizing cx cy with
  | nil => rfl
  | cons ch rest ih =>
    rw [textPaint_cons]
    split
    case isTrue hd =>
      have hrest : textPaint glyph rest (wrapColumn cx + 5) (wrapRow cx cy) a b = none := ih fun k hk hdk => by
        rw [← stringCell_succ]
        exact h (k + 1) (Nat.succ_lt_succ hk) ((cellDrawn_succ cx cy k).trans hdk)
      rw [hrest, h 0 (Nat.succ_pos _) hd]
      rfl
    case isFalse => rfl

/-- A pixel of a drawn cell is painted with its character's glyph bit: the cells of later characters do not reach it. -/
theorem textPaint_eq_some (glyph : Nat → Nat → Byte) {chars : List Byte} {cx cy k a b : Nat} (hk : k < chars.length)
    (hd : cellDrawn cx cy k = true) (hin : inCell (stringCell cx cy k) a b = true) :
    textPaint glyph chars cx cy a b =
      some ((glyphCol glyph chars[k] (a - (stringCell cx cy k).1)).getLsbD (b - (stringCell cx cy k).2)) := by
  induction chars generalizing cx cy k with
  | nil => exact absurd hk (Nat.not_lt_zero k)
  | cons ch rest ih =>
    rw [textPaint_cons]
    cases k with
    | zero =>
      have hrest : textPaint glyph rest (wrapColumn cx + 5) (wrapRow cx cy) a b = none :=
        textPaint_eq_none glyph fun k _ _ => by
          rw [← stringCell_succ]
          exact stringCell_disjoint (Nat.succ_pos k) hin
      rw [if_pos hd, hrest, Option.none_or, if_pos hin, List.getElem_cons_zero]
    | succ k =>
      have hd0 : cellDrawn cx cy 0 = true := cellDrawn_of_lt (Nat.succ_pos k) hd
      rw [cellDrawn_succ] at hd
      rw [stringCell_succ] at hin
      rw [if_pos hd0, ih (Nat.lt_of_succ_lt_succ hk) hd hin, Option.some_or, stringCell_succ, List.getElem_cons_succ]

/-- A drawn cell lies on the display. -/
theorem inRange_of_cellDrawn {cx cy k i j : Nat} (hd : cellDrawn cx cy k = true) (hi : i < 5) (hj : j < 5) :
    inRange ((stringCell cx cy k).1 + i) ((stringCell cx cy k).2 + j) = true := by
  have hwidth := stringCell_fits_width cx cy k
  have hheight := (cellDrawn_iff cx cy k).1 hd
  exact (inRange_iff _ _).2 (by omega)

/-- Every pixel of a drawn cell reads its character's glyph bit afterwards. -/
theorem getPixel_drawChars_cell (glyph : Nat → Nat → Byte) {chars : List Byte} {cx cy k : Nat} (s : State)
    (hk : k < chars.length) (hd : cellDrawn cx cy k = true) {i j : Nat} (hi : i < 5) (hj : j < 5) :
    getPixel ((stringCell cx cy k).1 + i) ((stringCell cx cy k).2 + j) (drawChars glyph chars cx cy s) =
      (glyphCol glyph chars[k] i).getLsbD j := by
  have hpaint := textPaint_eq_some glyph hk hd (inCell_offset _ hi hj)
  rw [(paints_drawChars glyph chars cx cy).getPixel_covered hpaint (inRange_of_cellDrawn hd hi hj),
    Nat.add_sub_cancel_left, Nat.add_sub_cancel_left]

/-! ### The obligations -/

/-- Settles O13: the loop paints the cells of the closed form, and no cell reaches into another. -/
theorem drawstrDrawsWrappedCells : Obligations.DrawstrDrawsWrappedCells := by
  refine ⟨decodeFirst_drawstr, fun x y chars s => ?_⟩
  have h := paints_drawChars Config.glyph chars x.toNat y.toNat
  refine ⟨(drawChars Config.glyph chars x.toNat y.toNat s).buf, ?_⟩
  rw [exec_drawstr, ← h.frame s]
  refine ⟨rfl, fun k hk hd => ?_, fun a b hout => ?_, h.otherBytesKept (fun a b hout => ?_) s⟩
  · exact ⟨stringCell_fits_width _ _ k, (cellDrawn_iff _ _ k).1 hd,
      fun i j hi hj => getPixel_drawChars_cell Config.glyph s hk hd hi hj⟩
  · exact h.getPixel_uncovered (textPaint_eq_none Config.glyph hout) s
  · exact textPaint_eq_none Config.glyph fun k hk hd => Bool.eq_false_iff.2 fun hin => hout ⟨k, hk, hd, hin⟩

/-- Settles O11: DRAWCH paints the cell with its glyph bits and no other pixel. -/
theorem drawchDrawsCell : Obligations.DrawchDrawsCell := by
  refine ⟨decodeFirst_drawch, fun x y ch s => ?_⟩
  have h := paints_drawChar Config.glyph ch x.toNat y.toNat
  refine ⟨(drawChar Config.glyph ch x.toNat y.toNat s).buf, ?_⟩
  rw [exec_drawch, ← h.frame s]
  refine ⟨rfl, fun i j hi hj hx hy => ?_, fun a b hout => ?_, h.otherBytesKept (fun _ _ hout => if_neg hout) s⟩
  · exact getPixel_drawChar_cell _ _ _ _ s hi hj ((inRange_iff _ _).2 ⟨hx, hy⟩)
  · exact h.getPixel_uncovered (if_neg (Bool.eq_false_iff.1 hout)) s

/-- Settles O12: the blank glyph clears the pixels on the display, and the others read 0. -/
theorem unmappedCharacterClearsCell : Obligations.UnmappedCharacterClearsCell := by
  intro x y ch s hrow
  refine ⟨_, exec_drawch x y ch s, fun i j hi hj => ?_⟩
  cases hr : inRange (x.toNat + i) (y.toNat + j) with
  | true =>
    rw [getPixel_drawChar_cell _ _ _ _ s hi hj hr, glyphCol_of_no_row _ i hrow]
    exact BitVec.getLsbD_zero
  | false => exact getPixel_out_of_range hr _

/-- Settles O10: the rows are R130's, and the columns are R131's for any ROM. -/
theorem glyphLookup : Obligations.GlyphLookup := by
  intro glyph ch i
  refine ⟨glyphRow_eq ch, fun row hrow => ?_, glyphCol_of_no_row glyph i⟩
  obtain ⟨hlo, hhi⟩ := glyphRow_bounds hrow
  exact ⟨hlo, hhi, fun j hj => getLsbD_glyphCol_of_row glyph i hrow hj⟩

end Sys2Proof.Machine

/-! ## The robot unit, and the statements of 43_robot.md -/

namespace Sys2Proof.Machine

/-! ### The moves keep the lattice (R21, R22, R27) -/

theorem latticeY_rowUp {y : Byte} (h : Config.latticeY y = true) : Config.latticeY (rowUp y) = true := by
  unfold rowUp
  split
  case isTrue => exact h
  case isFalse hge => exact latticeY_sub h (BitVec.not_lt.1 hge)

theorem latticeY_rowDown {y : Byte} (h : Config.latticeY y = true) : Config.latticeY (rowDown y) = true := by
  unfold rowDown
  split
  case isTrue => exact h
  case isFalse hle => exact latticeY_add h (BitVec.not_lt.1 hle)

theorem latticeX_columnLeft {x : Byte} (h : Config.latticeX x = true) : Config.latticeX (columnLeft x) = true := by
  unfold columnLeft
  split
  case isTrue => exact h
  case isFalse hge => exact latticeX_sub h (BitVec.not_lt.1 hge)

theorem latticeX_columnRight {x : Byte} (h : Config.latticeX x = true) : Config.latticeX (columnRight x) = true := by
  unfold columnRight
  split
  case isTrue => exact h
  case isFalse hle => exact latticeX_add h (BitVec.not_lt.1 hle)

theorem latticeX_sweepColumn (d : Bit) {x : Byte} (h : Config.latticeX x = true) :
    Config.latticeX (sweepColumn d x) = true := by
  unfold sweepColumn
  split
  · exact latticeX_columnRight h
  · exact latticeX_columnLeft h

/-! ### The invariant of the registers and the buffer (R25, R27, R34) -/

/-- The invariant without its clause on the decoder, which no command writes; `inv_iff` ties it to `State.Inv`. -/
structure State.BlockInv (s : State) : Prop where
  posX : Config.latticeX s.posX = true
  posY : Config.latticeY s.posY = true
  prevX : Config.latticeX s.prevX = true
  prevY : Config.latticeY s.prevY = true
  stepCount : s.stepCount.toNat ≤ 14
  buf : Memory.wf s.buf = true

theorem inv_iff (s : State) : s.Inv ↔ s.BlockInv ∧ s.pendingOwes = true := by
  constructor
  · rintro ⟨hl, hn, hb, hp⟩
    simp only [State.onLattice, Bool.and_eq_true] at hl
    obtain ⟨⟨⟨hx, hy⟩, hpx⟩, hpy⟩ := hl
    exact ⟨⟨hx, hy, hpx, hpy, hn, hb⟩, hp⟩
  · rintro ⟨⟨hx, hy, hpx, hpy, hn, hb⟩, hp⟩
    exact ⟨by simp only [State.onLattice, hx, hy, hpx, hpy, Bool.and_self], hn, hb, hp⟩

namespace State.BlockInv

variable {s : State}

theorem setPosX (h : s.BlockInv) {x : Byte} (hx : Config.latticeX x = true) : (s.setPosX x).BlockInv :=
  ⟨hx, h.posY, h.prevX, h.prevY, h.stepCount, h.buf⟩

theorem setPosY (h : s.BlockInv) {y : Byte} (hy : Config.latticeY y = true) : (s.setPosY y).BlockInv :=
  ⟨h.posX, hy, h.prevX, h.prevY, h.stepCount, h.buf⟩

theorem setStepCount (h : s.BlockInv) {n : BitVec 4} (hn : n.toNat ≤ 14) : (s.setStepCount n).BlockInv :=
  ⟨h.posX, h.posY, h.prevX, h.prevY, hn, h.buf⟩

theorem setBuf (h : s.BlockInv) {m : Memory} (hm : Memory.wf m = true) : (s.setBuf m).BlockInv :=
  ⟨h.posX, h.posY, h.prevX, h.prevY, h.stepCount, hm⟩

/-- Recording the current cell as the previous one (R156). -/
theorem setPrev (h : s.BlockInv) : (s.setPrev s.posX s.posY).BlockInv :=
  ⟨h.posX, h.posY, h.posX, h.posY, h.stepCount, h.buf⟩

theorem setDir (h : s.BlockInv) (d : Bit) : (s.setDir d).BlockInv :=
  ⟨h.posX, h.posY, h.prevX, h.prevY, h.stepCount, h.buf⟩

theorem setMode (h : s.BlockInv) (m : Bit) : (s.setMode m).BlockInv :=
  ⟨h.posX, h.posY, h.prevX, h.prevY, h.stepCount, h.buf⟩

theorem setPort (h : s.BlockInv) (p : Option PendingString) (rest : List PortEvent) : (s.setPort p rest).BlockInv :=
  ⟨h.posX, h.posY, h.prevX, h.prevY, h.stepCount, h.buf⟩

theorem emit (h : s.BlockInv) (o : Output) : (s.emit o).BlockInv :=
  ⟨h.posX, h.posY, h.prevX, h.prevY, h.stepCount, h.buf⟩

theorem moveUp (h : s.BlockInv) : (moveUp s).BlockInv := by
  rw [moveUp_eq]
  exact h.setPosY (latticeY_rowUp h.posY)

theorem moveDown (h : s.BlockInv) : (moveDown s).BlockInv := by
  rw [moveDown_eq]
  exact h.setPosY (latticeY_rowDown h.posY)

theorem moveLeft (h : s.BlockInv) : (moveLeft s).BlockInv := by
  rw [moveLeft_eq]
  exact h.setPosX (latticeX_columnLeft h.posX)

theorem moveRight (h : s.BlockInv) : (moveRight s).BlockInv := by
  rw [moveRight_eq]
  exact h.setPosX (latticeX_columnRight h.posX)

/-- A counted step leaves `STEP` at most 14 because it needs `STEP < 14`; a reversal clears it (R25, R145). -/
theorem sweepTick (h : s.BlockInv) : (sweepTick s).BlockInv := by
  by_cases hm : s.mode = 1
  · by_cases hn : s.stepCount < 14
    · have hsucc : (s.stepCount + 1).toNat ≤ 14 := by bv_omega
      rw [sweepTick_counted hm hn]
      exact (h.setPosX (latticeX_sweepColumn s.dir h.posX)).setStepCount hsucc
    · rw [sweepTick_reversal hm hn]
      exact ((h.setDir (1 - s.dir)).setStepCount (n := 0) (Nat.zero_le 14)).setPosY (latticeY_rowDown h.posY)
  · rw [sweepTick_manual hm]
    exact h

/-- What paints keeps the registers and the buffer's canonical form. -/
theorem paint (h : s.BlockInv) {f : State → State} {P : Nat → Nat → Option Bool} (hf : Paints f P) :
    (f s).BlockInv := by
  rw [hf.frame s]
  exact h.setBuf (hf.wf s h.buf)

theorem redraw (h : s.BlockInv) : (redraw s).BlockInv := by
  rw [redraw_eq_updates]
  exact ((h.setBuf (h.paint (paints_redraw _ _ _ _)).buf).setPrev).emit _

/-- Every command keeps the registers on the lattice, `STEP` in range and the buffer canonical (R27). -/
theorem exec (h : s.BlockInv) (i : Instr) : ∃ t, exec i s = .next t ∧ t.BlockInv := by
  cases i with
  | setpx => exact ⟨_, rfl, h.paint (paints_setPixel _ _ _)⟩
  | drawsq => exact ⟨_, rfl, h.paint (paints_paintSquare _ _ _ _)⟩
  | erasesq => exact ⟨_, rfl, h.paint (paints_paintSquare _ _ _ _)⟩
  | drawx => exact ⟨_, rfl, h.paint (paints_paintCross _ _)⟩
  | drawch => exact ⟨_, rfl, h.paint (paints_drawChar _ _ _ _)⟩
  | drawstr => exact ⟨_, rfl, h.paint (paints_drawChars _ _ _ _)⟩
  | fill => exact ⟨_, rfl, h.setBuf (Memory.wf_filled _)⟩
  | getpx | rdreg | present => exact ⟨_, rfl, h.emit _⟩
  | mvup => exact ⟨_, rfl, h.moveUp⟩
  | mvdown => exact ⟨_, rfl, h.moveDown⟩
  | mvleft => exact ⟨_, rfl, h.moveLeft⟩
  | mvright => exact ⟨_, rfl, h.moveRight⟩
  | tick => exact ⟨_, rfl, h.sweepTick⟩
  | setmode | cmdAuto => exact ⟨_, rfl, h.setMode _⟩
  | cmdUp => exact ⟨_, rfl, (h.setMode 0).moveUp⟩
  | cmdDown => exact ⟨_, rfl, (h.setMode 0).moveDown⟩
  | cmdLeft => exact ⟨_, rfl, (h.setMode 0).moveLeft⟩
  | cmdRight => exact ⟨_, rfl, (h.setMode 0).moveRight⟩
  | render =>
    refine ⟨_, rfl, ?_⟩
    split
    · exact h.redraw
    · exact h

end State.BlockInv

/-- A reset establishes the invariant, since the model's own reset parameters are legal (R27, R190). -/
theorem reset_inv (k : Nat) (input : List PortEvent) (out : List Output) :
    (State.resetWith Config.resetParams k input out).Inv :=
  resetWith_inv (by decide) k input out

/-- Settles O53: a wait leaves a DRAWSTR that owes payload, a reset gives a legal start, and a command keeps the registers
and the buffer and leaves nothing pending. -/
theorem everyStepKeepsInvariant : Obligations.EveryStepKeepsInvariant := by
  intro s t hs h
  obtain ⟨hb, -⟩ := (inv_iff s).1 hs
  obtain ⟨-, rfl⟩ | ⟨p, hfetch, rfl⟩ | ⟨rest, -, rfl⟩ | ⟨r, rest, -, rfl⟩ | ⟨i, rest, -, ht⟩ |
    ⟨i, taken, rest, u, -, -, rfl⟩ := step_cases h
  · exact hs
  · exact (inv_iff _).2 ⟨hb.setPort (some p) [], decide_eq_true (fetch_waiting hfetch)⟩
  · exact reset_inv _ _ _
  · exact (inv_iff _).2 ⟨hb.setPort none rest, rfl⟩
  · obtain ⟨u, hu, hub⟩ := (hb.setPort none rest).exec i
    obtain ⟨v, hv, hpending, -⟩ := exec_next_port i (s.setPort none rest)
    cases ht.symm.trans hu
    cases ht.symm.trans hv
    exact (inv_iff t).2 ⟨hub, by rw [State.pendingOwes, hpending]; rfl⟩
  · exact reset_inv _ _ _


/-! ### The commands, with the guards on the values of the coordinates (R140 to R145) -/

theorem exec_mvup (s : State) :
    exec .mvup s = .next (if s.posY.toNat < 16 then s else s.setPosY (s.posY - 8)) := rfl
theorem exec_mvdown (s : State) :
    exec .mvdown s = .next (if s.posY.toNat > 48 then s else s.setPosY (s.posY + 8)) := rfl
theorem exec_mvleft (s : State) :
    exec .mvleft s = .next (if s.posX.toNat < 16 then s else s.setPosX (s.posX - 8)) := rfl
theorem exec_mvright (s : State) :
    exec .mvright s = .next (if s.posX.toNat > 104 then s else s.setPosX (s.posX + 8)) := rfl
theorem exec_tick (s : State) : exec .tick s = .next (sweepTick s) := rfl

theorem exec_setmode (m : Bool) (s : State) : exec (.setmode m) s = .next (s.setMode (if m then 1 else 0)) := by
  cases m <;> rfl

theorem rowDown_eq (y : Byte) : rowDown y = if y.toNat > 48 then y else y + 8 := rfl
theorem sweepColumn_eq (d : Bit) (x : Byte) :
    sweepColumn d x =
      if d = 0 then (if x.toNat > 104 then x else x + 8) else (if x.toNat < 16 then x else x - 8) := rfl

/-- The indicators read the mode (R29). -/
theorem indicators_setMode (m : Bool) (s : State) :
    (s.setMode (if m then 1 else 0)).indAuto = m ∧ (s.setMode (if m then 1 else 0)).indManual = !m := by
  cases m <;> exact ⟨rfl, rfl⟩

/-! ### One row of the sweep (R142, R143, R145, R146) -/

/-- Any number of TICKs completes, and is that many steps of the sweep. -/
theorem execTimes_tick (n : Nat) (s : State) : execTimes n .tick s = .next (sweepTick^[n] s) := by
  induction n generalizing s with
  | zero => rfl
  | succ n ih => exact ih (sweepTick s)

/-- `s` with the fields that the sweep writes at the given values. -/
def State.atSweep (s : State) (x y : Byte) (d : Bit) (n : BitVec 4) : State :=
  (((s.setPosX x).setPosY y).setDir d).setStepCount n

/-- The column at which the sweep of a row toward `d` starts: the left end for `DIR` 0, the right end for `DIR` 1. -/
def sweepStart (d : Bit) : Byte := if d = 0 then 8 else 112

/-- The column `n` counted steps into the sweep of a row toward `d`: one cell further each, up to the 13th. -/
def sweptColumn (d : Bit) (n : Nat) : Byte :=
  if d = 0 then BitVec.ofNat 8 (8 + 8 * min n 13) else BitVec.ofNat 8 (112 - 8 * min n 13)

/-- A row ends where the sweep back along the next row starts. -/
theorem sweptColumn_end (d : Bit) : sweptColumn d 14 = sweepStart (1 - d) := by
  obtain rfl | rfl := BitVec.eq_zero_or_eq_one d <;> rfl

/-- The 14 counted steps of a row, in either direction: the last of them finds the robot at the bound. -/
theorem sweepColumn_sweptColumn :
    ∀ (d : Bit) (n : Nat), n < 14 → sweepColumn d (sweptColumn d n) = sweptColumn d (n + 1) := by
  decide

section
variable {s : State} (hm : s.mode = 1)
include hm

theorem sweepTick_atSweep_counted (y : Byte) (d : Bit) {n : Nat} (hn : n < 14) :
    sweepTick (s.atSweep (sweptColumn d n) y d (BitVec.ofNat 4 n)) =
      s.atSweep (sweptColumn d (n + 1)) y d (BitVec.ofNat 4 (n + 1)) := by
  have hlt : BitVec.ofNat 4 n < 14 := by bv_omega
  rw [← sweepColumn_sweptColumn d n hn, BitVec.ofNat_add]
  exact sweepTick_counted (s := s.atSweep _ y d _) hm hlt

theorem sweepTick_atSweep_reversal (x y : Byte) (d : Bit) :
    sweepTick (s.atSweep x y d 14) = s.atSweep x (rowDown y) (1 - d) 0 :=
  sweepTick_reversal (s := s.atSweep x y d 14) hm (BitVec.lt_irrefl 14)

theorem iterate_sweepTick_row (y : Byte) (d : Bit) {n : Nat} (hn : n ≤ 14) :
    sweepTick^[n] (s.atSweep (sweepStart d) y d 0) = s.atSweep (sweptColumn d n) y d (BitVec.ofNat 4 n) := by
  induction n with
  | zero => rfl
  | succ n ih => rw [Function.iterate_succ_apply', ih (by omega), sweepTick_atSweep_counted hm y d hn]

/-- A whole row: 14 counted ticks to its far end, and one that reverses and moves down. -/
theorem iterate_sweepTick_fifteen (y : Byte) (d : Bit) :
    sweepTick^[15] (s.atSweep (sweepStart d) y d 0) = s.atSweep (sweepStart (1 - d)) (rowDown y) (1 - d) 0 := by
  rw [Function.iterate_succ_apply', iterate_sweepTick_row hm y d le_rfl, sweptColumn_end]
  exact sweepTick_atSweep_reversal hm _ y d

/-- `k` whole rows from a left end: the direction alternates, and each row ends in a move down. -/
theorem iterate_sweepTick_rows (y : Byte) (k : Nat) :
    sweepTick^[15 * k] (s.atSweep (sweepStart 0) y 0 0) =
      s.atSweep (sweepStart (BitVec.ofNat 1 k)) (rowDown^[k] y) (BitVec.ofNat 1 k) 0 := by
  induction k with
  | zero => rfl
  | succ k ih =>
    have hflip : 1 - BitVec.ofNat 1 k = BitVec.ofNat 1 (k + 1) := by bv_omega
    rw [Nat.mul_succ, Nat.add_comm, Function.iterate_add_apply, ih, iterate_sweepTick_fifteen hm, hflip,
      Function.iterate_succ_apply']

end

/-! ### The sweep from the left end of a row, and on the bottom row (R146, R147) -/

section
variable {s : State} (hx : s.posX = 8) (hd : s.dir = 0) (hn : s.stepCount = 0)
include hx hd hn

theorem atSweep_sweepStart : s.atSweep (sweepStart 0) s.posY 0 0 = s :=
  calc s.atSweep (sweepStart 0) s.posY 0 0
    _ = s.atSweep s.posX s.posY s.dir s.stepCount := by rw [hx, hd, hn]; rfl
    _ = s := rfl

variable (hm : s.mode = 1)
include hm

theorem iterate_sweepTick_row_from_left {n : Nat} (hle : n ≤ 14) :
    sweepTick^[n] s = (s.setPosX (sweptColumn 0 n)).setStepCount (BitVec.ofNat 4 n) :=
  calc sweepTick^[n] s
    _ = sweepTick^[n] (s.atSweep (sweepStart 0) s.posY 0 0) := by rw [atSweep_sweepStart hx hd hn]
    _ = s.atSweep (sweptColumn 0 n) s.posY s.dir (BitVec.ofNat 4 n) := by rw [hd, iterate_sweepTick_row hm s.posY 0 hle]
    _ = (s.setPosX (sweptColumn 0 n)).setStepCount (BitVec.ofNat 4 n) := rfl

theorem iterate_sweepTick_rows_from_left (k : Nat) :
    sweepTick^[15 * k] s =
      ((s.setPosX (sweepStart (BitVec.ofNat 1 k))).setPosY (rowDown^[k] s.posY)).setDir (BitVec.ofNat 1 k) :=
  calc sweepTick^[15 * k] s
    _ = sweepTick^[15 * k] (s.atSweep (sweepStart 0) s.posY 0 0) := by rw [atSweep_sweepStart hx hd hn]
    _ = s.atSweep (sweepStart (BitVec.ofNat 1 k)) (rowDown^[k] s.posY) (BitVec.ofNat 1 k) s.stepCount := by
      rw [hn, iterate_sweepTick_rows hm s.posY k]
    _ = _ := rfl

/-- Two rows on the bottom row lead back to the state they started from. -/
theorem iterate_sweepTick_thirty (hy : s.posY = 56) : sweepTick^[30] s = s :=
  calc sweepTick^[15 * 2] s
    _ = ((s.setPosX 8).setPosY (rowDown (rowDown s.posY))).setDir 0 := iterate_sweepTick_rows_from_left hx hd hn hm 2
    _ = ((s.setPosX s.posX).setPosY s.posY).setDir s.dir := by rw [hx, hy, hd]; rfl
    _ = s := rfl

end

/-- The start of row `k` counted from the left end of the top row alternates between the ends. -/
theorem sweepStart_ofNat (k : Nat) : sweepStart (BitVec.ofNat 1 k) = if k % 2 = 1 then 112 else 8 := by
  obtain h | h := Nat.mod_two_eq_zero_or_one k
  · have : BitVec.ofNat 1 k = 0 := by bv_omega
    simp [sweepStart, this, h]
  · have : BitVec.ofNat 1 k = 1 := by bv_omega
    simp [sweepStart, this, h]

/-- Six moves down lead from the top row to the bottom row. -/
theorem iterate_rowDown_top {k : Nat} (hk : k ≤ 6) : rowDown^[k] 8 = BitVec.ofNat 8 (8 + 8 * k) := by
  induction k with
  | zero => rfl
  | succ k ih =>
    have hle : ¬(BitVec.ofNat 8 (8 + 8 * k)).toNat > 48 := by bv_omega
    rw [Function.iterate_succ_apply', ih (by omega), rowDown_eq, if_neg hle]
    bv_omega

/-- A tick on the bottom row stays on it: the move down of a reversal is saturated. -/
theorem sweepTick_bottomRow {s : State} (hy : s.posY = 56) (hm : s.mode = 1) :
    ∃ x d c, sweepTick s = ((s.setPosX x).setDir d).setStepCount c := by
  by_cases hn : s.stepCount < 14
  · exact ⟨sweepColumn s.dir s.posX, s.dir, s.stepCount + 1, sweepTick_counted hm hn⟩
  · have hstay : rowDown s.posY = s.posY := by rw [hy]; rfl
    exact ⟨s.posX, 1 - s.dir, 0, by rw [sweepTick_reversal hm hn, hstay]; rfl⟩

theorem iterate_sweepTick_bottomRow {s : State} (hy : s.posY = 56) (hm : s.mode = 1) (n : Nat) :
    ∃ x d c, sweepTick^[n] s = ((s.setPosX x).setDir d).setStepCount c := by
  induction n with
  | zero => exact ⟨s.posX, s.dir, s.stepCount, rfl⟩
  | succ n ih =>
    obtain ⟨x, d, c, hbefore⟩ := ih
    obtain ⟨x', d', c', htick⟩ := sweepTick_bottomRow (s := ((s.setPosX x).setDir d).setStepCount c) hy hm
    exact ⟨x', d', c', by rw [Function.iterate_succ_apply', hbefore, htick]; rfl⟩

/-! ### The obligations on the robot commands -/

/-- Settles O23: the ticks of one row give the column and the count, and whole rows give the ends, the rows and the
directions in turn. -/
theorem sweepCoversRowIn15Ticks : Obligations.SweepCoversRowIn15Ticks := by
  intro s hx hd hn hm
  have hrow {n : Nat} (hle : n ≤ 14) := iterate_sweepTick_row_from_left hx hd hn hm hle
  have hrows := iterate_sweepTick_rows_from_left hx hd hn hm
  simp only [execTimes_tick]
  refine ⟨fun n hle => ?_, congrArg _ (hrow le_rfl), congrArg _ (hrows 1), fun hy k hk => ?_⟩
  · rw [hrow (by omega), sweptColumn, if_pos rfl, min_eq_left hle]
  · rw [hrows, hy, iterate_rowDown_top hk, sweepStart_ofNat]

/-- Settles O24: every tick on the bottom row stays on it, and 30 of them from its left end are a full cycle. -/
theorem bottomRowSweepsForever : Obligations.BottomRowSweepsForever := by
  constructor
  · intro n s hy hm
    obtain ⟨x, d, c, h⟩ := iterate_sweepTick_bottomRow hy hm n
    exact ⟨x, d, c, (execTimes_tick n s).trans (congrArg _ h)⟩
  · intro n s hx hy hd hn hm
    rw [execTimes_tick, Function.iterate_mul, Function.iterate_fixed (iterate_sweepTick_thirty hx hd hn hm hy)]

/-- Settles O17: the opcode alone selects MVUP, and its guard is on the value of `POS_Y`. -/
theorem mvupMovesOrSaturates : Obligations.MvupMovesOrSaturates := ⟨decodeFirst_mvup, exec_mvup⟩

/-- Settles O18: the opcode alone selects MVDOWN, and its guard is on the value of `POS_Y`. -/
theorem mvdownMovesOrSaturates : Obligations.MvdownMovesOrSaturates := ⟨decodeFirst_mvdown, exec_mvdown⟩

/-- Settles O19: the opcode alone selects MVLEFT, and its guard is on the value of `POS_X`. -/
theorem mvleftMovesOrSaturates : Obligations.MvleftMovesOrSaturates := ⟨decodeFirst_mvleft, exec_mvleft⟩

/-- Settles O20: the opcode alone selects MVRIGHT, and its guard is on the value of `POS_X`. -/
theorem mvrightMovesOrSaturates : Obligations.MvrightMovesOrSaturates := ⟨decodeFirst_mvright, exec_mvright⟩

/-- Settles O21: SETMODE reads bit 0 of `c`, and the indicators read the mode it writes. -/
theorem setmodeWritesMode : Obligations.SetmodeWritesMode :=
  ⟨decodeFirst_setmode, fun m s => ⟨exec_setmode m s, indicators_setMode m s⟩⟩

/-- Settles O22: a tick is one of three things, by the mode and the count. -/
theorem tickSweeps : Obligations.TickSweeps := by
  refine ⟨decodeFirst_tick, fun s => ?_⟩
  rw [exec_tick]
  split
  case isTrue hm => rw [sweepTick_manual (by rw [hm]; decide)]
  case isFalse hm =>
    have hauto : s.mode = 1 := (BitVec.eq_zero_or_eq_one s.mode).resolve_left hm
    split
    case isTrue hn => rw [sweepTick_counted hauto hn, sweepColumn_eq]
    case isFalse hn => rw [sweepTick_reversal hauto hn, rowDown_eq]; rfl

end Sys2Proof.Machine

/-! ## The host commands, and the statements of 44_host_commands.md -/

namespace Sys2Proof

/-! ### The words of no row (R83, R84, R85) -/

/-- A CMD code from 5 on is rejected by name (R84, R155). -/
theorem decodeCmd_unrecognised {code : Byte} (h : 5 ≤ code.toNat) :
    decodeCmd code = .noCommand (.unrecognisedCmd code) := by
  unfold decodeCmd
  split
  case h_6 => rfl
  all_goals exact absurd h (by decide)

/-- An opcode that is not in the table is rejected by name (R83, R85). -/
theorem decodeFirst_reserved {w : Word}
    (h : opField w ∉ [0x01, 0x02, 0x03, 0x04, 0x05, 0x06, 0x07, 0x08, 0x09, 0x10, 0x11, 0x12, 0x13, 0x14, 0x15, 0x16, 0x20,
      0x30]) : decodeFirst w = .noCommand (.reservedOpcode (opField w)) := by
  unfold decodeFirst
  split
  case h_19 => rfl
  all_goals
    next hop =>
      rw [hop] at h
      exact absurd (by decide) h

end Sys2Proof

namespace Sys2Proof.Machine

/-- A word of no row at the head of the port, where a command word is expected, is taken, and that is all (R85, R155, R158). -/
theorem step_of_word_noCommand {s : State} {w : Word} {r : Reject} {rest : List PortEvent}
    (hw : decodeFirst w = .noCommand r) (hp : s.pending = none) (hin : s.input = .word w :: rest) :
    step s = .next (s.setPort none rest) := by
  refine step_of_fetch_noCommand (r := r) ?_
  rw [hp, hin]
  exact fetchFirst_word_of_noCommand hw rest

/-! ### The recognised CMDs: the mode, then the move from the same coordinate (R150 to R154) -/

theorem exec_cmdUp (s : State) : exec .cmdUp s = .next ((s.setMode 0).setPosY (rowUp s.posY)) :=
  congrArg Host.Outcome.next (moveUp_eq (s.setMode 0))
theorem exec_cmdDown (s : State) : exec .cmdDown s = .next ((s.setMode 0).setPosY (rowDown s.posY)) :=
  congrArg Host.Outcome.next (moveDown_eq (s.setMode 0))
theorem exec_cmdLeft (s : State) : exec .cmdLeft s = .next ((s.setMode 0).setPosX (columnLeft s.posX)) :=
  congrArg Host.Outcome.next (moveLeft_eq (s.setMode 0))
theorem exec_cmdRight (s : State) : exec .cmdRight s = .next ((s.setMode 0).setPosX (columnRight s.posX)) :=
  congrArg Host.Outcome.next (moveRight_eq (s.setMode 0))
theorem exec_cmdAuto (s : State) : exec .cmdAuto s = .next (s.setMode 1) := rfl

/-! ### The register file as RDREG reads it (R33, R157) -/

/-- The values of registers 0 to 10, in the order of their numbers. -/
def State.registers (s : State) : List Byte :=
  [s.posX, s.posY, s.prevX, s.prevY, s.dir.setWidth 8, s.stepCount.setWidth 8, s.mode.setWidth 8, s.status,
    0x80, 0x40, 0x08]

theorem readReg_assigned {n : Nat} (hn : n < 11) (s : State) :
    s.registers[n]? = some (readReg (BitVec.ofNat 8 n) s) := by
  interval_cases n <;> rfl

/-- A register number past the list is unassigned and reads 0 (R33). -/
theorem readReg_eq (r : Byte) (s : State) : readReg r s = (s.registers[r.toNat]?).getD 0 := by
  by_cases hr : r.toNat < 11
  · rw [readReg_assigned hr, BitVec.ofNat_toNat, BitVec.setWidth_eq, Option.getD_some]
  · have hr : 11 ≤ r.toNat := Nat.not_lt.1 hr
    rw [readReg_unassigned hr, List.getElem?_eq_none (show s.registers.length ≤ r.toNat from hr), Option.getD_none]

theorem exec_rdreg (r : Byte) (s : State) : exec (.rdreg r) s = .next (s.emit (.rsp (readReg r s))) := rfl

/-! ### The redraw (R156) -/

theorem posChanged_eq_true_iff (s : State) : s.posChanged = true ↔ ¬(s.posX = s.prevX ∧ s.posY = s.prevY) := by
  simp only [State.posChanged, Bool.or_eq_true, bne_iff_ne, ne_eq, not_and_or]

theorem exec_render_of_unchanged {s : State} (h : s.posChanged = false) : exec .render s = .next s :=
  congrArg Host.Outcome.next (if_neg (Bool.eq_false_iff.1 h))

theorem exec_render_of_changed {s : State} (h : s.posChanged = true) : exec .render s = .next (redraw s) :=
  congrArg Host.Outcome.next (if_pos h)

/-- Once the position is recorded, no redraw is due, whatever was painted and emitted. -/
theorem posChanged_recorded (s : State) (m : Memory) (o : Output) :
    (((s.setBuf m).setPrev s.posX s.posY).emit o).posChanged = false := by
  simp [State.posChanged]

/-- The buffer that the redraw leaves is the painted one. -/
theorem setBuf_redraw (s : State) :
    s.setBuf (redraw s).buf =
      paintSquare s.posX.toNat s.posY.toNat 8 true (paintSquare s.prevX.toNat s.prevY.toNat 8 false s) :=
  ((paints_redraw s.prevX.toNat s.prevY.toNat s.posX.toNat s.posY.toNat).frame s).symm

/-- Where the two squares overlap, the later drawing decides. -/
theorem getPixel_redraw (s : State) {a b : Nat} (hr : inRange a b = true) :
    getPixel a b (s.setBuf (redraw s).buf) =
      if inSquare s.posX.toNat s.posY.toNat 8 a b then true
      else if inSquare s.prevX.toNat s.prevY.toNat 8 a b then false
      else getPixel a b s := by
  rw [setBuf_redraw, getPixel_paintSquare _ _ _ _ _ hr, getPixel_paintSquare _ _ _ _ _ hr]

theorem otherBytesKept_redraw (s : State) :
    OtherBytesKept
      (fun a b => inSquare s.posX.toNat s.posY.toNat 8 a b = true ∨ inSquare s.prevX.toNat s.prevY.toNat 8 a b = true)
      s (s.setBuf (redraw s).buf) := by
  rw [setBuf_redraw]
  refine (paints_redraw s.prevX.toNat s.prevY.toNat s.posX.toNat s.posY.toNat).otherBytesKept (fun a b hout => ?_) s
  obtain ⟨hnew, hold⟩ := not_or.1 hout
  rw [if_neg hnew, if_neg hold]

/-! ### The obligations on the host commands -/

/-- Settles O33: a changed position is painted, recorded and sent, so the frame is the one of the painted buffer; an
unchanged one is left alone. -/
theorem renderRedrawsChangedPosition : Obligations.RenderRedrawsChangedPosition := by
  refine ⟨decodeFirst_render, fun s => ⟨fun hsame => ?_, fun hmoved => ?_⟩⟩
  · have hc : s.posChanged = false := Bool.eq_false_iff.2 fun hc => (posChanged_eq_true_iff s).1 hc hsame
    exact ⟨exec_render_of_unchanged hc, hc⟩
  · have hexec := exec_render_of_changed ((posChanged_eq_true_iff s).2 hmoved)
    rw [redraw_eq_updates] at hexec
    exact ⟨(redraw s).buf, (s.setBuf (redraw s).buf).currentFrame, hexec, posChanged_recorded s _ _,
      fun a b ha hb => getPixel_redraw s ((inRange_iff a b).2 ⟨ha, hb⟩), otherBytesKept_redraw s,
      currentFrame_length _, fun _ => currentFrame_byte _, rfl, rfl⟩

/-- Settles O26: `c` selects CMD up, which moves from the row as it stands, the mode being no operand of the move. -/
theorem cmdUpIsManualThenMove : Obligations.CmdUpIsManualThenMove :=
  ⟨fun a b => decodeFirst_cmd a b 0x00, exec_cmdUp⟩

/-- Settles O27: as CMD up, with the column and the move left. -/
theorem cmdLeftIsManualThenMove : Obligations.CmdLeftIsManualThenMove :=
  ⟨fun a b => decodeFirst_cmd a b 0x01, exec_cmdLeft⟩

/-- Settles O28: as CMD up, with the column and the move right. -/
theorem cmdRightIsManualThenMove : Obligations.CmdRightIsManualThenMove :=
  ⟨fun a b => decodeFirst_cmd a b 0x02, exec_cmdRight⟩

/-- Settles O29: as CMD up, with the move down. -/
theorem cmdDownIsManualThenMove : Obligations.CmdDownIsManualThenMove :=
  ⟨fun a b => decodeFirst_cmd a b 0x03, exec_cmdDown⟩

/-- Settles O30: CMD auto is the one recognised CMD without a move. -/
theorem cmdAutoWritesMode : Obligations.CmdAutoWritesMode :=
  ⟨fun a b => decodeFirst_cmd a b 0x04, exec_cmdAuto⟩

/-- Settles O31: the opcode selects CMD, and the code no row of it. -/
theorem unrecognisedCmdIsIgnored : Obligations.UnrecognisedCmdIsIgnored := fun a b c _ _ hc =>
  step_of_word_noCommand ((decodeFirst_cmd a b c).trans (decodeCmd_unrecognised hc))

/-- Settles O32: the opcode selects no row. -/
theorem reservedOpcodeIsIgnored : Obligations.ReservedOpcodeIsIgnored := fun _ _ _ hop =>
  step_of_word_noCommand (decodeFirst_reserved hop)

/-- Settles O34: the response is the register's entry in the list of the assigned ones, or 0. -/
theorem rdregRespondsRegister : Obligations.RdregRespondsRegister := by
  refine ⟨decodeFirst_rdreg, fun r s => ?_⟩
  rw [exec_rdreg, readReg_eq]
  rfl

end Sys2Proof.Machine

/-! ## Runs of any length, and the statements of 60_exceptions.md on idling and totality -/

namespace Sys2Proof.Machine

/-- A state that a step answers unchanged is answered by every run. -/
theorem run_of_step_self {s : State} (h : step s = .next s) (n : Nat) : Host.Core.run core n s = .next s := by
  induction n with
  | zero => rfl
  | succ n ih => exact (run_succ_of_step h n).trans ih

/-- Settles O46: an empty port makes the state a fixed point of the step, whatever DRAWSTR is pending. -/
theorem idleBlockHoldsState : Obligations.IdleBlockHoldsState :=
  fun n _ hidle => run_of_step_self (step_of_input_nil hidle) n

/-- Settles O47, by induction on the length of the run: its first step answers a next state, from which the rest runs. -/
theorem noRunEverStops : Obligations.NoRunEverStops := by
  intro n
  induction n with
  | zero => exact fun s => ⟨s, rfl⟩
  | succ n ih =>
    intro s
    obtain ⟨t, ht⟩ := step_safe s
    obtain ⟨u, hu⟩ := ih t
    exact ⟨u, (run_succ_of_step ht n).trans hu⟩

end Sys2Proof.Machine

/-! ## Resets and the output ports, and the statements of 70_reset_and_hazards.md -/

namespace Sys2Proof

/-! ### A reset during the last word of a command (R89, R190) -/

/-- Payload that completes its DRAWSTR with its last word completes it when a reset comes during that word. -/
theorem gatherPayload_cut_of_command {ws : List Word} {w : Word} {p : PendingString} {i : Instr}
    (h : gatherPayload ((ws ++ [w]).map .word) p = .command i []) (taken : Nat) (rest : List PortEvent) :
    gatherPayload (ws.map .word ++ .cutWord w taken :: rest) p = .cutCommand i taken rest := by
  induction ws generalizing p with
  | nil =>
    simp only [List.nil_append, List.map_cons, List.map_nil, gatherPayload] at h ⊢
    split at h
    case isTrue hlast => cases h; exact if_pos hlast
    case isFalse => cases h
  | cons v ws ih =>
    simp only [List.cons_append, List.map_cons, gatherPayload] at h ⊢
    split at h
    case isTrue => simp at h
    case isFalse howes => rw [if_neg howes]; exact ih h

/-- Words that are one whole command are that command, cut short, when a reset comes during the last of them. -/
theorem fetchFirst_cut_of_command {ws : List Word} {w : Word} {i : Instr}
    (h : fetchFirst ((ws ++ [w]).map .word) = .command i []) (taken : Nat) (rest : List PortEvent) :
    fetchFirst (ws.map .word ++ .cutWord w taken :: rest) = .cutCommand i taken rest := by
  cases ws with
  | nil =>
    simp only [List.nil_append, List.map_cons, List.map_nil, fetchFirst] at h ⊢
    split at h
    case h_1 => cases h; rfl
    all_goals cases h
  | cons v ws =>
    simp only [List.cons_append, List.map_cons] at h ⊢
    cases hv : decodeFirst v with
    | command j => rw [fetchFirst_word_of_command hv] at h; simp at h
    | stringHeader x y len =>
      rw [fetchFirst_word_of_stringHeader hv] at h ⊢
      exact gatherPayload_cut_of_command h taken rest
    | noCommand r => rw [fetchFirst_word_of_noCommand hv] at h; cases h

/-- A reset during a word that is no whole command, where a command word is expected, is a plain reset. -/
theorem fetchFirst_cutWord_of_not_command {w : Word} (h : ∀ i, decodeFirst w ≠ .command i) (taken : Nat)
    (rest : List PortEvent) : fetchFirst (.cutWord w taken :: rest) = .reset rest := by
  cases hw : decodeFirst w with
  | command i => exact absurd hw (h i)
  | stringHeader x y len => simp only [fetchFirst, hw]
  | noCommand r => simp only [fetchFirst, hw]

end Sys2Proof

namespace Sys2Proof.Machine

/-! ### What commands and steps append to the outputs (R92, R190, R194) -/

/-- Painting emits nothing. -/
theorem Paints.out_eq {f : State → State} {P : Nat → Nat → Option Bool} (hf : Paints f P) (s : State) :
    (f s).out = s.out :=
  (congrArg State.out (hf.frame s)).trans (State.setBuf_out s _)

/-- A command completes and appends at most one output (R92). -/
theorem exec_emits (i : Instr) (s : State) :
    ∃ (t : State) (o : Option Output), exec i s = .next t ∧ t.out = s.out ++ o.toList := by
  obtain ⟨f, hf, he⟩ := exec_effect i
  obtain ho | ⟨-, v, ho⟩ | ⟨-, fr, ho⟩ := hf.out_cases s
  · exact ⟨f s, none, he s, by rw [ho, Option.toList_none, List.append_nil]⟩
  · exact ⟨f s, some (.rsp v), he s, ho⟩
  · exact ⟨f s, some (.frame fr), he s, ho⟩

/-- A step on a command cut short is a reset that keeps what shows of the command's outputs (R190). -/
theorem step_of_cut {s t : State} {i : Instr} {taken : Nat} {rest : List PortEvent} {more : List Output}
    (hf : fetch s.pending s.input = .cutCommand i taken rest) (he : exec i (s.setPort none rest) = .next t)
    (ho : t.out = s.out ++ more) :
    step s = .next (State.resetWith Config.resetParams (s.resets + 1) rest (s.out ++ more.flatMap (cutOutput taken))) := by
  rw [step_of_fetch_cutCommand hf, he, ← resetExecuting_of_append ho]
  rfl

theorem toList_flatMap_cutOutput_length (taken : Nat) (o : Option Output) :
    (o.toList.flatMap (cutOutput taken)).length ≤ 1 := by
  cases o with
  | none => exact Nat.zero_le 1
  | some o => simpa using cutOutput_length taken o

/-- A step that runs no command emits nothing; one that runs a command appends that command's output, whole or cut short. -/
theorem step_appends {s t : State} (h : step s = .next t) : ∃ more, t.out = s.out ++ more ∧ more.length ≤ 1 := by
  obtain ⟨-, rfl⟩ | ⟨p, -, rfl⟩ | ⟨rest, -, rfl⟩ | ⟨r, rest, -, rfl⟩ | ⟨i, rest, -, ht⟩ |
    ⟨i, taken, rest, u, -, hu, rfl⟩ := step_cases h
  case inr.inr.inr.inr.inl =>
    obtain ⟨v, o, hv, ho⟩ := exec_emits i (s.setPort none rest)
    cases ht.symm.trans hv
    exact ⟨o.toList, ho, by cases o <;> simp⟩
  case inr.inr.inr.inr.inr =>
    obtain ⟨v, o, hv, ho⟩ := exec_emits i (s.setPort none rest)
    cases hu.symm.trans hv
    exact ⟨_, congrArg State.out (resetExecuting_of_append ho), toList_flatMap_cutOutput_length taken o⟩
  all_goals exact ⟨[], (List.append_nil _).symm, Nat.zero_le 1⟩

/-- A reset during the command that completes a DRAWSTR is a plain reset, since a DRAWSTR emits nothing (R133, R190). -/
theorem step_of_cut_drawstr {s : State} {p : PendingString} {taken : Nat} {rest : List PortEvent}
    (hf : fetch s.pending s.input = .cutCommand p.command taken rest) : step s = .next (resetBlock rest s) := by
  rw [step_of_fetch_cutCommand hf, PendingString.command, exec_drawstr]
  exact congrArg Host.Outcome.next (resetExecuting_silent ((paints_drawChars ..).out_eq (s.setPort none rest)))

/-! ### The obligations on resets and outputs -/

/-- Settles O45: the step completes, and appends the output of the command it runs, if any. -/
theorem outputsAreOnlyAppended : Obligations.OutputsAreOnlyAppended := by
  intro s
  obtain ⟨t, ht⟩ := step_safe s
  obtain ⟨more, hout, hlen⟩ := step_appends ht
  exact ⟨t, more, ht, hout, hlen⟩

/-- Settles O51: the fetch finds the command cut short; the cases are those of the one output it may have. -/
theorem resetDuringCommandCutsOutput : Obligations.ResetDuringCommandCutsOutput := by
  intro s ws w taken rest i hp hin hl hd
  have hwhole : fetchFirst ((ws ++ [w]).map .word) = .command i [] := by
    simpa using fetchFirst_of_decode hl hd []
  have hf : fetch s.pending s.input = .cutCommand i taken rest := by
    rw [hp, hin]
    exact fetchFirst_cut_of_command hwhole taken rest
  obtain ⟨t, o, ht, ho⟩ := exec_emits i (s.setPort none rest)
  refine ⟨t, _, ht, step_of_cut hf ht ho, ?_⟩
  cases o with
  | none => exact .inl ⟨by simpa using ho, rfl⟩
  | some o =>
    rw [Option.toList_some, List.flatMap_singleton]
    cases o with
    | rsp v => exact .inr (.inl ⟨v, ho, rfl⟩)
    | frame f => exact .inr (.inr ⟨f, ho, rfl⟩)

/-- Settles O50: in each clause the fetch finds a reset, but for the payload word that completes its DRAWSTR, which emits
nothing that a reset could cut. -/
theorem resetDiscardsEverything : Obligations.ResetDiscardsEverything := by
  refine ⟨fun s rest hin => ?_, fun s p ws rest hp hl hin => ?_, fun s p ws w taken rest hp hl hin => ?_,
    fun s w taken rest hp hin hw => ?_⟩
  · exact step_of_fetch_reset (by rw [hin, fetch_reset])
  · refine step_of_fetch_reset ?_
    rw [hp, hin, fetch_of_need_pos (Nat.zero_lt_of_lt hl), gatherPayload_short ws p hl]
    rfl
  · have hf := gatherPayload_cut ws w p hl taken rest
    rw [← fetch_of_need_pos (Nat.zero_lt_of_lt hl), ← hp, ← hin] at hf
    by_cases hlast : ws.length + 1 = p.need
    · exact step_of_cut_drawstr (hf.trans (if_pos hlast))
    · exact step_of_fetch_reset (hf.trans (if_neg hlast))
  · refine step_of_fetch_reset ?_
    rw [hp, hin]
    exact fetchFirst_cutWord_of_not_command hw taken rest

end Sys2Proof.Machine
